-- ==== Sys2Proof/Word.lean ====
section
/-! DEFINITION. The word types of the Processing Unit (spec/00_scope.md R5): 8-bit registers, 16-bit
instruction words and addresses, 4-bit register selectors. -/

namespace Sys2Proof

/-- An 8-bit value: a general register, a timer, a memory byte, the immediate `kk` (R5 `XLEN`). -/
abbrev Byte := BitVec 8

/-- A 16-bit value: an instruction word, `PC`, `I`, a stack entry (R5 `ILEN`, `PC_WIDTH`, `I_WIDTH`). -/
abbrev Word := BitVec 16

/-- A register selector: the 4-bit field `x` or `y`, always in 0..15 (R10). -/
abbrev Reg := Fin 16

/-- The key numbers of the keyboard, 0..15 (R5 `NKEYS`, R176). -/
abbrev Key := Fin 16

/-- A coordinate sent to the renderer: the signals `rend_x` and `rend_y` are 9 bits wide (R172). -/
abbrev Coord := BitVec 9

/-- The number of `VF`, general register 15, the flag register (R13). -/
abbrev flagReg : Reg := 15

end Sys2Proof
end

