-- ==== Sys2Proof/Syntax.lean ====
section
/-! DEFINITION. The 34 instructions of spec/30_encoding.md R66, one constructor per row of
spec/opcode_table.json, and the five events of spec/50_interfaces.md R170. Operands are typed by the width
of their field (R61): `x`, `y` are selectors 0..15, `kk` a byte, `nnn` 12 bits, `n` 4 bits. -/

namespace Sys2Proof

/-- The instruction set (R66): the whole of it (R2, R70). -/
inductive Instr where
  /-- `00E0` CLS (R142) -/
  | cls
  /-- `00EE` RET (R81) -/
  | ret
  /-- `1nnn` JP nnn (R82) -/
  | jp (nnn : BitVec 12)
  /-- `2nnn` CALL nnn (R83) -/
  | call (nnn : BitVec 12)
  /-- `3xkk` SE Vx, kk (R84) -/
  | seByte (x : Reg) (kk : Byte)
  /-- `4xkk` SNE Vx, kk (R85) -/
  | sneByte (x : Reg) (kk : Byte)
  /-- `5xy0` SE Vx, Vy (R86) -/
  | seReg (x y : Reg)
  /-- `6xkk` LD Vx, kk (R101) -/
  | ldByte (x : Reg) (kk : Byte)
  /-- `7xkk` ADD Vx, kk (R102) -/
  | addByte (x : Reg) (kk : Byte)
  /-- `8xy0` LD Vx, Vy (R103) -/
  | ldReg (x y : Reg)
  /-- `8xy1` OR Vx, Vy (R104) -/
  | orReg (x y : Reg)
  /-- `8xy2` AND Vx, Vy (R105) -/
  | andReg (x y : Reg)
  /-- `8xy3` XOR Vx, Vy (R106) -/
  | xorReg (x y : Reg)
  /-- `8xy4` ADD Vx, Vy (R107) -/
  | addReg (x y : Reg)
  /-- `8xy5` SUB Vx, Vy (R108) -/
  | subReg (x y : Reg)
  /-- `8xy6` SHR Vx (R109). The field `y` is free and ignored (R71); it is kept so that no bit of the
  word is lost. -/
  | shr (x y : Reg)
  /-- `8xy7` SUBN Vx, Vy (R110) -/
  | subnReg (x y : Reg)
  /-- `8xyE` SHL Vx (R111). The field `y` is free and ignored (R71), kept as in `shr`. -/
  | shl (x y : Reg)
  /-- `9xy0` SNE Vx, Vy (R87) -/
  | sneReg (x y : Reg)
  /-- `Annn` LD I, nnn (R121) -/
  | ldI (nnn : BitVec 12)
  /-- `Bnnn` JP V0, nnn (R88) -/
  | jpV0 (nnn : BitVec 12)
  /-- `Cxkk` RND Vx, kk (R112) -/
  | rnd (x : Reg) (kk : Byte)
  /-- `Dxyn` DRW Vx, Vy, n (R143) -/
  | drw (x y : Reg) (n : BitVec 4)
  /-- `Ex9E` SKP Vx (R145) -/
  | skp (x : Reg)
  /-- `ExA1` SKNP Vx (R146) -/
  | sknp (x : Reg)
  /-- `Fx07` LD Vx, DT (R160) -/
  | ldVxDT (x : Reg)
  /-- `Fx0A` LD Vx, K (R148) -/
  | ldVxK (x : Reg)
  /-- `Fx15` LD DT, Vx (R161) -/
  | ldDTVx (x : Reg)
  /-- `Fx18` LD ST, Vx (R162) -/
  | ldSTVx (x : Reg)
  /-- `Fx1E` ADD I, Vx (R122) -/
  | addI (x : Reg)
  /-- `Fx29` LD F, Vx (R123) -/
  | ldF (x : Reg)
  /-- `Fx33` LD B, Vx (R124) -/
  | ldB (x : Reg)
  /-- `Fx55` LD [I], Vx (R125) -/
  | storeRegs (x : Reg)
  /-- `Fx65` LD Vx, [I] (R126) -/
  | loadRegs (x : Reg)
  deriving DecidableEq, Repr

/-- The five events through which the environment acts on the core, and nothing else (R170). -/
inductive Event where
  /-- D0's `reset()` (R230) -/
  | reset
  /-- D0's `load_program(bytes)` (R175) -/
  | load (bytes : List Byte)
  /-- one iteration of D0's `step(n)` (R240) -/
  | step
  /-- D0's `tick_timers()` (R214) -/
  | tick
  /-- the keyboard invoking the registered callback (R149) -/
  | keyPress (k : Key)
  deriving DecidableEq, Repr

end Sys2Proof
end

