-- ==== Sys2Proof/WellFormed.lean ====
section
/-! DEFINITION. Well-formedness. The operand types of `Instr` already bound every field, so each
instruction is well-formed (R10: "every selector is in range 0..15 by construction"); the check is written
out so that it can be read beside R61. An event is well-formed when its program image fits (R175). -/

namespace Sys2Proof

/-- Every operand fits its encoding field (R61, R63). -/
def Instr.wellFormed : Instr → Bool
  | .cls | .ret => true
  | .jp nnn | .call nnn | .ldI nnn | .jpV0 nnn => nnn.toNat < 4096
  | .seByte x kk | .sneByte x kk | .ldByte x kk | .addByte x kk | .rnd x kk =>
      x.val < 16 && kk.toNat < 256
  | .seReg x y | .sneReg x y | .ldReg x y | .orReg x y | .andReg x y | .xorReg x y | .addReg x y
  | .subReg x y | .shr x y | .subnReg x y | .shl x y => x.val < 16 && y.val < 16
  | .drw x y n => x.val < 16 && y.val < 16 && n.toNat < 16
  | .skp x | .sknp x | .ldVxDT x | .ldVxK x | .ldDTVx x | .ldSTVx x | .addI x | .ldF x | .ldB x
  | .storeRegs x | .loadRegs x => x.val < 16

/-- A program image that fits the program area 0x200..0xFFF: at most 3584 bytes (R5 `PROG_MAX`, R175). -/
def imageFits (bytes : List Byte) : Bool := bytes.length ≤ 3584

/-- Events the host may send without being told `ProgramTooLarge` (R175, R205). -/
def Event.wellFormed : Event → Bool
  | .load bytes => imageFits bytes
  | .reset | .step | .tick => true
  | .keyPress k => k.val < 16

end Sys2Proof
end

