-- ==== Sys2Proof/Decode.lean ====
section
/-! DEFINITION. Decoding and encoding of the 16-bit instruction word (spec/30_encoding.md): the fields of
R61, the dispatch of R64, the opcode map of R66 as rows of mask and match, and the encoder written from
the same map. Decoding is a pure function of the word (R64). -/

namespace Sys2Proof

/-! ## Fields (R61): bit 0 is the least significant -/

/-- `t = op[15:12]`, the primary dispatch key. -/
def fieldT (w : Word) : BitVec 4 := w.extractLsb' 12 4

/-- `x = op[11:8]`. -/
def fieldX (w : Word) : Reg := (w.extractLsb' 8 4).toFin

/-- `y = op[7:4]`. -/
def fieldY (w : Word) : Reg := (w.extractLsb' 4 4).toFin

/-- `n = op[3:0]`. -/
def fieldN (w : Word) : BitVec 4 := w.extractLsb' 0 4

/-- `kk = op[7:0]`. -/
def fieldKK (w : Word) : Byte := w.extractLsb' 0 8

/-- `nnn = op[11:0]`. -/
def fieldNNN (w : Word) : BitVec 12 := w.extractLsb' 0 12

/-! ## Decoding -/

/-- Group 0 matches the whole word against 0x00E0 and 0x00EE; every other word of it is illegal (R64, R68). -/
def decode0 (w : Word) : Option Instr :=
  if w = 0x00E0#16 then some .cls
  else if w = 0x00EE#16 then some .ret
  else none

/-- Group 8 keys on the low nibble (R64). -/
def decode8 (w : Word) : Option Instr :=
  match (fieldN w).toNat with
  | 0x0 => some (.ldReg (fieldX w) (fieldY w))
  | 0x1 => some (.orReg (fieldX w) (fieldY w))
  | 0x2 => some (.andReg (fieldX w) (fieldY w))
  | 0x3 => some (.xorReg (fieldX w) (fieldY w))
  | 0x4 => some (.addReg (fieldX w) (fieldY w))
  | 0x5 => some (.subReg (fieldX w) (fieldY w))
  | 0x6 => some (.shr (fieldX w) (fieldY w))
  | 0x7 => some (.subnReg (fieldX w) (fieldY w))
  | 0xE => some (.shl (fieldX w) (fieldY w))
  | _ => none

/-- Group E keys on the low byte (R64). -/
def decodeE (w : Word) : Option Instr :=
  match (fieldKK w).toNat with
  | 0x9E => some (.skp (fieldX w))
  | 0xA1 => some (.sknp (fieldX w))
  | _ => none

/-- Group F keys on the low byte (R64). -/
def decodeF (w : Word) : Option Instr :=
  match (fieldKK w).toNat with
  | 0x07 => some (.ldVxDT (fieldX w))
  | 0x0A => some (.ldVxK (fieldX w))
  | 0x15 => some (.ldDTVx (fieldX w))
  | 0x18 => some (.ldSTVx (fieldX w))
  | 0x1E => some (.addI (fieldX w))
  | 0x29 => some (.ldF (fieldX w))
  | 0x33 => some (.ldB (fieldX w))
  | 0x55 => some (.storeRegs (fieldX w))
  | 0x65 => some (.loadRegs (fieldX w))
  | _ => none

/-- The instruction a word is, or `none` for an illegal word (R65, R67). The primary key is the top
nibble; groups 5 and 9 also fix the low nibble at 0 (R69). -/
def decode (w : Word) : Option Instr :=
  match (fieldT w).toNat with
  | 0x0 => decode0 w
  | 0x1 => some (.jp (fieldNNN w))
  | 0x2 => some (.call (fieldNNN w))
  | 0x3 => some (.seByte (fieldX w) (fieldKK w))
  | 0x4 => some (.sneByte (fieldX w) (fieldKK w))
  | 0x5 => if fieldN w = 0 then some (.seReg (fieldX w) (fieldY w)) else none
  | 0x6 => some (.ldByte (fieldX w) (fieldKK w))
  | 0x7 => some (.addByte (fieldX w) (fieldKK w))
  | 0x8 => decode8 w
  | 0x9 => if fieldN w = 0 then some (.sneReg (fieldX w) (fieldY w)) else none
  | 0xA => some (.ldI (fieldNNN w))
  | 0xB => some (.jpV0 (fieldNNN w))
  | 0xC => some (.rnd (fieldX w) (fieldKK w))
  | 0xD => some (.drw (fieldX w) (fieldY w) (fieldN w))
  | 0xE => decodeE w
  | 0xF => decodeF w
  | _ => none

/-- Why a byte sequence does not start with an instruction. -/
inductive DecodeReject where
  /-- Fewer than two bytes are left: no instruction word can be formed (R45, R60). -/
  | truncated
  /-- The word matches no row of R66 (R67): executing it raises `DecodeFault` (R201). -/
  | illegalWord (w : Word)
  deriving DecidableEq, Repr

/-- The instruction word formed by two consecutive bytes: the first is the high half (R45, R49). -/
def wordOfBytes (hi lo : Byte) : Word := hi ++ lo

/-- Decoding of a byte sequence, total, with the bytes left over. Every instruction is 2 bytes (R60). -/
def decodeBytes : List Byte → Except DecodeReject (Instr × List Byte)
  | hi :: lo :: rest =>
      match decode (wordOfBytes hi lo) with
      | some i => .ok (i, rest)
      | none => .error (.illegalWord (wordOfBytes hi lo))
  | [] | [_] => .error .truncated

/-! ## Encoding (R62, R66) -/

/-- Format NNN: a fixed top nibble and a 12-bit immediate. -/
def formNNN (t : BitVec 4) (nnn : BitVec 12) : Word := t ++ nnn

/-- Format XKK: a fixed top nibble, `x`, and the byte `kk`. Format XFF is the same with a function byte. -/
def formXKK (t : BitVec 4) (x : Reg) (kk : Byte) : Word := t ++ BitVec.ofFin (w := 4) x ++ kk

/-- Format XYN: a fixed top nibble, `x`, `y`, and the nibble `n`. Format XYF is the same with a function
nibble. -/
def formXYN (t : BitVec 4) (x y : Reg) (n : BitVec 4) : Word :=
  t ++ BitVec.ofFin (w := 4) x ++ BitVec.ofFin (w := 4) y ++ n

/-- The word of an instruction, by its row of R66. -/
def encode : Instr → Word
  | .cls => 0x00E0#16
  | .ret => 0x00EE#16
  | .jp nnn => formNNN 0x1#4 nnn
  | .call nnn => formNNN 0x2#4 nnn
  | .seByte x kk => formXKK 0x3#4 x kk
  | .sneByte x kk => formXKK 0x4#4 x kk
  | .seReg x y => formXYN 0x5#4 x y 0x0#4
  | .ldByte x kk => formXKK 0x6#4 x kk
  | .addByte x kk => formXKK 0x7#4 x kk
  | .ldReg x y => formXYN 0x8#4 x y 0x0#4
  | .orReg x y => formXYN 0x8#4 x y 0x1#4
  | .andReg x y => formXYN 0x8#4 x y 0x2#4
  | .xorReg x y => formXYN 0x8#4 x y 0x3#4
  | .addReg x y => formXYN 0x8#4 x y 0x4#4
  | .subReg x y => formXYN 0x8#4 x y 0x5#4
  | .shr x y => formXYN 0x8#4 x y 0x6#4
  | .subnReg x y => formXYN 0x8#4 x y 0x7#4
  | .shl x y => formXYN 0x8#4 x y 0xE#4
  | .sneReg x y => formXYN 0x9#4 x y 0x0#4
  | .ldI nnn => formNNN 0xA#4 nnn
  | .jpV0 nnn => formNNN 0xB#4 nnn
  | .rnd x kk => formXKK 0xC#4 x kk
  | .drw x y n => formXYN 0xD#4 x y n
  | .skp x => formXKK 0xE#4 x 0x9E#8
  | .sknp x => formXKK 0xE#4 x 0xA1#8
  | .ldVxDT x => formXKK 0xF#4 x 0x07#8
  | .ldVxK x => formXKK 0xF#4 x 0x0A#8
  | .ldDTVx x => formXKK 0xF#4 x 0x15#8
  | .ldSTVx x => formXKK 0xF#4 x 0x18#8
  | .addI x => formXKK 0xF#4 x 0x1E#8
  | .ldF x => formXKK 0xF#4 x 0x29#8
  | .ldB x => formXKK 0xF#4 x 0x33#8
  | .storeRegs x => formXKK 0xF#4 x 0x55#8
  | .loadRegs x => formXKK 0xF#4 x 0x65#8

/-- The two bytes of an instruction in memory order, high half first (R49). -/
def encodeBytes (i : Instr) : List Byte :=
  [(encode i).extractLsb' 8 8, (encode i).extractLsb' 0 8]

/-! ## The opcode map as data (R66) -/

/-- One row of the opcode map: a word `w` is the row's instruction when `w AND mask = pattern`. -/
structure OpcodeRow where
  mask : Word
  pattern : Word
  deriving DecidableEq, Repr

/-- `(op AND mask) = match`, the row test of R65. -/
def OpcodeRow.covers (r : OpcodeRow) (w : Word) : Bool := w &&& r.mask == r.pattern

/-- The row of an instruction in R66. -/
def Instr.row : Instr → OpcodeRow
  | .cls => ⟨0xFFFF#16, 0x00E0#16⟩
  | .ret => ⟨0xFFFF#16, 0x00EE#16⟩
  | .jp _ => ⟨0xF000#16, 0x1000#16⟩
  | .call _ => ⟨0xF000#16, 0x2000#16⟩
  | .seByte _ _ => ⟨0xF000#16, 0x3000#16⟩
  | .sneByte _ _ => ⟨0xF000#16, 0x4000#16⟩
  | .seReg _ _ => ⟨0xF00F#16, 0x5000#16⟩
  | .ldByte _ _ => ⟨0xF000#16, 0x6000#16⟩
  | .addByte _ _ => ⟨0xF000#16, 0x7000#16⟩
  | .ldReg _ _ => ⟨0xF00F#16, 0x8000#16⟩
  | .orReg _ _ => ⟨0xF00F#16, 0x8001#16⟩
  | .andReg _ _ => ⟨0xF00F#16, 0x8002#16⟩
  | .xorReg _ _ => ⟨0xF00F#16, 0x8003#16⟩
  | .addReg _ _ => ⟨0xF00F#16, 0x8004#16⟩
  | .subReg _ _ => ⟨0xF00F#16, 0x8005#16⟩
  | .shr _ _ => ⟨0xF00F#16, 0x8006#16⟩
  | .subnReg _ _ => ⟨0xF00F#16, 0x8007#16⟩
  | .shl _ _ => ⟨0xF00F#16, 0x800E#16⟩
  | .sneReg _ _ => ⟨0xF00F#16, 0x9000#16⟩
  | .ldI _ => ⟨0xF000#16, 0xA000#16⟩
  | .jpV0 _ => ⟨0xF000#16, 0xB000#16⟩
  | .rnd _ _ => ⟨0xF000#16, 0xC000#16⟩
  | .drw _ _ _ => ⟨0xF000#16, 0xD000#16⟩
  | .skp _ => ⟨0xF0FF#16, 0xE09E#16⟩
  | .sknp _ => ⟨0xF0FF#16, 0xE0A1#16⟩
  | .ldVxDT _ => ⟨0xF0FF#16, 0xF007#16⟩
  | .ldVxK _ => ⟨0xF0FF#16, 0xF00A#16⟩
  | .ldDTVx _ => ⟨0xF0FF#16, 0xF015#16⟩
  | .ldSTVx _ => ⟨0xF0FF#16, 0xF018#16⟩
  | .addI _ => ⟨0xF0FF#16, 0xF01E#16⟩
  | .ldF _ => ⟨0xF0FF#16, 0xF029#16⟩
  | .ldB _ => ⟨0xF0FF#16, 0xF033#16⟩
  | .storeRegs _ => ⟨0xF0FF#16, 0xF055#16⟩
  | .loadRegs _ => ⟨0xF0FF#16, 0xF065#16⟩

/-- One instruction of each of the 34 rows, operands zero, in the order of R66. -/
def rowExamples : List Instr :=
  [.cls, .ret, .jp 0, .call 0, .seByte 0 0, .sneByte 0 0, .seReg 0 0, .ldByte 0 0, .addByte 0 0]
  ++ [.ldReg 0 0, .orReg 0 0, .andReg 0 0, .xorReg 0 0, .addReg 0 0, .subReg 0 0, .shr 0 0, .subnReg 0 0,
      .shl 0 0]
  ++ [.sneReg 0 0, .ldI 0, .jpV0 0, .rnd 0 0, .drw 0 0 0, .skp 0, .sknp 0]
  ++ [.ldVxDT 0, .ldVxK 0, .ldDTVx 0, .ldSTVx 0, .addI 0, .ldF 0, .ldB 0, .storeRegs 0, .loadRegs 0]

/-- The complete opcode map: 34 rows (R66). -/
def opcodeRows : List OpcodeRow := rowExamples.map Instr.row

/-! ## The host's numbering -/

/-- The word whose bits are numbered as spec/opcode_table.json numbers them: one 16-bit word, the bits above
`nbits` zero. -/
def tableWord (nbits w : Nat) : Word := BitVec.ofNat 16 (w % 2 ^ nbits)

/-- The instruction the decoder reads from the word of a table row, laid out in memory high byte first. -/
def decodeTableWord (nbits w : Nat) : Option Instr :=
  let op := tableWord nbits w
  match decodeBytes [op.extractLsb' 8 8, op.extractLsb' 0 8] with
  | .ok (i, _) => some i
  | .error _ => none

end Sys2Proof
end

