-- ==== Sys2Proof/Config.lean ====
section
/-! DEFINITION. The open inputs of the Processing Unit (spec/00_scope.md R6): what no rule fixes. Each
is an uninterpreted function of a counter (`State.draws`), so a claim about it holds whatever the
environment answers. Log entry 5. -/

namespace Sys2Proof.Config

/-- FREE VALUE. The random byte of the `n`-th free draw, read by `Cxkk` (R112, R179): no generator, no seed,
no law. -/
opaque rndByte : Nat → Byte

/-- FREE VALUE. The 16 held bits of the keyboard at the `n`-th free draw, sampled by `Ex9E` and `ExA1`
(R145, R146, R176): bit `k` is 1 while key `k` is held. -/
opaque keyDown : Nat → BitVec 16

/-- FREE VALUE. The renderer's answer to one `toggle_pixel` at the `n`-th free draw (R143, R177): true if
the pixel went from set to clear. -/
opaque erased : Nat → Bool

end Sys2Proof.Config
end

