-- ==== Sys2Proof/Machine/Font.lean ====
section
/-! DEFINITION. The parameter `FONT[0..79]` (spec/00_scope.md R6, spec/10_state.md R28): 16 glyphs of 5 bytes,
glyph `d` at `5 d`. Its values are open (decision D23): the machine takes them as an argument, `State.font`, which
nothing changes, so a claim about every state is a claim about every font. Below stands the default of R28, which
`State.reset` takes and which the spec marks as general knowledge. Log entry 1. -/

namespace Sys2Proof.Machine

/-- A value of the parameter `FONT[0..79]`. -/
abbrev Font := Vector Byte 80

/-- Glyphs 0 to 7 of the default. -/
def fontLow : List Byte :=
  [0xF0, 0x90, 0x90, 0x90, 0xF0] ++ [0x20, 0x60, 0x20, 0x20, 0x70] ++ [0xF0, 0x10, 0xF0, 0x80, 0xF0]
  ++ [0xF0, 0x10, 0xF0, 0x10, 0xF0] ++ [0x90, 0x90, 0xF0, 0x10, 0x10] ++ [0xF0, 0x80, 0xF0, 0x10, 0xF0]
  ++ [0xF0, 0x80, 0xF0, 0x90, 0xF0] ++ [0xF0, 0x10, 0x20, 0x40, 0x40]

/-- Glyphs 8 to F of the default. -/
def fontHigh : List Byte :=
  [0xF0, 0x90, 0xF0, 0x90, 0xF0] ++ [0xF0, 0x90, 0xF0, 0x10, 0xF0] ++ [0xF0, 0x90, 0xF0, 0x90, 0x90]
  ++ [0xE0, 0x90, 0xE0, 0x90, 0xE0] ++ [0xF0, 0x80, 0x80, 0x80, 0xF0] ++ [0xE0, 0x90, 0x90, 0x90, 0xE0]
  ++ [0xF0, 0x80, 0xF0, 0x80, 0xF0] ++ [0xF0, 0x80, 0xF0, 0x80, 0x80]

/-- The default of `FONT[0..79]` (R28). -/
def defaultFont : Font := ⟨⟨fontLow ++ fontHigh⟩, rfl⟩

end Sys2Proof.Machine
end

