-- ==== Sys2Proof/Machine/State.lean ====
section
/-! DEFINITION. The state of the Processing Unit (spec/10_state.md): every register, the call stack, the
timers, the wait state, the fault latch and memory, and beside them the model's own fields that hold what
the environment does to the core and sees of it (spec/50_interfaces.md). Plain data throughout. -/

namespace Sys2Proof.Machine

/-- Reasons `step` could answer `Host.Outcome.fault`: NONE. The four faults of this hardware (R200) do not end
the model's run: raising one latches the fault record and the core goes on answering steps by doing nothing
(R207, R240), so it is a next state (`takeFault`). Safe: no behaviour of the hardware is cut off. -/
inductive Fault where
  deriving DecidableEq, Repr

/-- Reasons `step` can answer `Host.Outcome.refused`. -/
inductive Refusal where
  /-- Raised only by an arm of `exec` for an instruction that has no meaning yet; no arm of this model is one.
  Safe: nothing can be proved of a refused instruction's effect. -/
  | notModelled (mnemonic : String)
  deriving DecidableEq, Repr

/-- The causes of `FAULT.cause` (R24, R200). -/
inductive FaultCause where
  /-- code 0: no fault is latched -/
  | none
  /-- code 1: the word matches no row of the opcode map (R201) -/
  | decodeFault
  /-- code 2: a call with 16 entries on the stack (R202) -/
  | stackOverflow
  /-- code 3: a return with an empty stack (R203) -/
  | stackUnderflow
  /-- code 4: a needed byte address is above 0xFFF (R204) -/
  | memoryFault
  deriving DecidableEq, Repr

/-- `FAULT`, the fault record (R24). -/
structure FaultRecord where
  /-- a fault is latched -/
  valid : Bool
  cause : FaultCause
  /-- the address the faulting instruction was, or would have been, fetched from -/
  addr : Word
  /-- the fetched word; 0 when the fault happened during fetch -/
  opcode : Word
  /-- a `MemoryFault` happened during fetch -/
  fetch : Bool
  /-- for `MemoryFault` the lowest byte address above 0xFFF that the access needed, else 0 -/
  maddr : BitVec 17
  deriving DecidableEq, Repr

/-- The record with all fields 0, as reset leaves it (R27). -/
def FaultRecord.clear : FaultRecord :=
  { valid := false, cause := .none, addr := 0, opcode := 0, fetch := false, maddr := 0 }

/-- Memory as data: the bytes that differ from what reset wrote, by strictly rising address (see
`Memory.wf` in Machine/Ops.lean). An unlisted address reads as its reset value. -/
abbrev Memory := List Host.Cell

/-- What the outside observes as it happens (R173): the commands to the renderer (R177), in the order
issued, and the refusal of a `Load` (R175). -/
inductive Output where
  /-- `Renderer.clear()` -/
  | clear
  /-- `Renderer.toggle_pixel(x, y)` -/
  | toggle (x y : Coord)
  /-- `load_error`: the `Load` was refused, `ProgramTooLarge` -/
  | loadError
  deriving DecidableEq, Repr

/-- The machine. -/
structure State where
  /-- `V[0]` to `V[15]` (R10); `VF` is `v[15]` (R13) -/
  v : Vector Byte 16
  /-- `PC` (R16) -/
  pc : Word
  /-- `I`, the index register (R18) -/
  i : Word
  /-- `SP`, the number of entries on the call stack, 0..16 (R19) -/
  sp : Fin 17
  /-- `STACK[0..15]` (R19) -/
  stack : Vector Word 16
  /-- `DT`, the delay timer (R20) -/
  dt : Byte
  /-- `ST`, the sound timer (R21) -/
  st : Byte
  /-- `PAUSED` (R22) -/
  paused : Bool
  /-- `KEY_DEST` (R23) -/
  keyDest : Reg
  /-- `FAULT` (R24) -/
  fault : FaultRecord
  /-- `MEM[0..4095]` (R25) -/
  mem : Memory
  /-- PARAMETER. `FONT[0..79]`, the bytes reset writes to 0x000..0x04F (R6, R28): any value, fixed for the machine;
  no instruction and no event changes it. Log entry 1. -/
  font : Font
  /-- MODEL'S OWN. The events the environment sends next, the first first (R170, R171); when it is empty the
  environment sends `Step`. Log entry 2. -/
  agenda : List Event
  /-- MODEL'S OWN. The values of input `rnd` for the next draws (R179); when it is empty a draw is the free
  value `Config.rndByte`. Log entry 5. -/
  rndIn : List Byte
  /-- MODEL'S OWN. The values of input `key_down` for the next queries (R176), then `Config.keyDown`. -/
  keyIn : List (BitVec 16)
  /-- MODEL'S OWN. The renderer's answers to the next toggles (R177), then `Config.erased`. -/
  erasedIn : List Bool
  /-- MODEL'S OWN. How many free values have been drawn from Config. -/
  draws : Nat
  /-- MODEL'S OWN. The record of what the core has sent (R173), oldest first. Log entry 3. -/
  out : List Output
  deriving DecidableEq, Repr

/-- The machine right after reset, which is also power-on (R27, R29, R231). Memory lists nothing: every
address reads as reset left it. The parameter `FONT` stands at its default (log entry 1). -/
def State.reset : State where
  v := Vector.replicate 16 0
  pc := 0x0200
  i := 0
  sp := 0
  stack := Vector.replicate 16 0
  dt := 0
  st := 0
  paused := false
  keyDest := 0
  fault := .clear
  mem := []
  font := defaultFont
  agenda := []
  rndIn := []
  keyIn := []
  erasedIn := []
  draws := 0
  out := []

end Sys2Proof.Machine
end

