-- ==== Sys2Proof/Machine/Ops.lean ====
section
/-! DEFINITION. The named operations over memory, registers and the other state: the access primitives of
spec/20_memory.md, the push and pop of the call stack, the fault entry of spec/60_exceptions.md R207 as one
operation (`takeFault`), the wait state, the free inputs, the commands to the renderer, and fetch. The
hardware has no return from an exception (R208): the only exit from the faulted state is `Event.reset`. -/

namespace Sys2Proof.Machine

/-- What an instruction, an event or a step answers. -/
abbrev Result := Host.Outcome State Fault Refusal

/-! ## Memory: every operation takes the parameter `FONT`, which reset wrote (log entry 1) -/

namespace Memory

/-- What an unlisted address reads as: the value reset wrote, the font in 0x000..0x04F and 0 above (R27,
R41). -/
def resetByte (f : Font) (a : Nat) : Byte := if h : a < 80 then f[a] else 0

/-- The byte at an address. -/
def read (f : Font) : Memory → Nat → Byte
  | [], a => resetByte f a
  | (b, w) :: m, a => if a = b then w else read f m a

/-- Every listed address is above `lo`, strictly rising, inside `MEM[0..4095]`, and listed with a value
other than what it reads as unlisted. -/
def wfAbove (f : Font) : Option Nat → Memory → Bool
  | _, [] => true
  | lo, (b, w) :: m =>
      (match lo with | none => true | some l => decide (l < b))
        && decide (b < 4096) && w != resetByte f b && wfAbove f (some b) m

/-- The canonical form of a memory (log entry 4): equal memories are equal lists. -/
def wf (f : Font) (m : Memory) : Bool := wfAbove f none m

/-- Write one byte, keeping the canonical form: writing the value an unlisted address reads as removes the
entry. -/
def write (f : Font) : Memory → Nat → Byte → Memory
  | [], a, x => if x = resetByte f a then [] else [(a, x)]
  | (b, w) :: m, a, x =>
      if a < b then (if x = resetByte f a then (b, w) :: m else (a, x) :: (b, w) :: m)
      else if a = b then (if x = resetByte f a then m else (a, x) :: m)
      else (b, w) :: write f m a x

/-- Write consecutive bytes in ascending address order (R49). -/
def writeBytes (f : Font) (m : Memory) (a : Nat) : List Byte → Memory
  | [] => m
  | x :: xs => writeBytes f (write f m a x) (a + 1) xs

end Memory

/-- `MEM[a]` (R25, R44). -/
def State.readByte (s : State) (a : Nat) : Byte := Memory.read s.font s.mem a

/-- The machine's memory is in canonical form. -/
def State.memWf (s : State) : Bool := Memory.wf s.font s.mem

/-- The range check of R48: an access of `len` bytes at `base`, over the natural numbers with no wrap (R47).
The answer is the lowest needed address above 0xFFF, which is `max(base, 0x1000)` (R127). -/
def rangeFault (base len : Nat) : Option Nat :=
  if 0 < len ∧ 0xFFF < base + len - 1 then some (max base 0x1000) else none

/-! ## Registers -/

namespace State

/-- `V[r] <- x`. No register is hardwired (R10). -/
def setV (s : State) (r : Reg) (x : Byte) : State := { s with v := s.v.set r x }

/-- `PC <- x`. -/
def setPc (s : State) (x : Word) : State := { s with pc := x }

/-- `I <- x`. -/
def setI (s : State) (x : Word) : State := { s with i := x }

/-- `DT <- x`. -/
def setDt (s : State) (x : Byte) : State := { s with dt := x }

/-- `ST <- x`. -/
def setSt (s : State) (x : Byte) : State := { s with st := x }

/-- `MEM[a] <- bytes[0]`, `MEM[a + 1] <- bytes[1]` and so on (R46, R49). -/
def storeBytes (s : State) (a : Nat) (bytes : List Byte) : State :=
  { s with mem := Memory.writeBytes s.font s.mem a bytes }

/-- `KEY_DEST <- r; PAUSED <- 1` (R148). -/
def pauseFor (s : State) (r : Reg) : State := { s with keyDest := r, paused := true }

/-- `PAUSED <- 0` (R149). -/
def resume (s : State) : State := { s with paused := false }

/-- Send one command or report to the outside. -/
def emit (s : State) (o : Output) : State := { s with out := s.out ++ [o] }

/-- Skip the next instruction when `c` holds: add 2 to the already advanced `PC` (R89). -/
def skipIf (s : State) (c : Bool) : State := if c then s.setPc (s.pc + 2) else s

/-- Load consecutive memory bytes at `base` into `V[0]` to `V[x]` (R126). -/
def loadV (s : State) (x : Reg) (base : Nat) : State :=
  { s with v := Vector.ofFn fun k : Reg => if k ≤ x then s.readByte (base + k.val) else s.v[k] }

/-! ## The call stack (R19) -/

/-- `STACK[SP] <- x; SP <- SP + 1`, or nothing to answer when 16 entries are held. -/
def push (s : State) (x : Word) : Option State :=
  if h : s.sp.val < 16 then
    some { s with stack := s.stack.set s.sp.val x, sp := ⟨s.sp.val + 1, by omega⟩ }
  else none

/-- `SP <- SP - 1` and the entry `STACK[SP]`, or nothing to answer when the stack is empty. -/
def pop (s : State) : Option (Word × State) :=
  if h : 0 < s.sp.val then
    some (s.stack[s.sp.val - 1]'(by omega), { s with sp := ⟨s.sp.val - 1, by omega⟩ })
  else none

/-! ## Faults -/

/-- FAULT ENTRY (R207), the one operation that takes an exception: the record is latched with the fields R200
lists for the cause, the fields not listed 0, and nothing else changes. No handler runs and no vector is
read. -/
def takeFault (s : State) (cause : FaultCause) (addr opcode : Word) (fetch : Bool) (maddr : Nat) : State :=
  { s with fault :=
      { valid := true, cause := cause, addr := addr, opcode := opcode, fetch := fetch,
        maddr := BitVec.ofNat 17 maddr } }

/-- A fault found after fetch: `PC` stays at `a + 2` and the record holds `a` and the fetched word (R206). -/
def raise (s : State) (cause : FaultCause) (op : Word) (maddr : Nat) : State :=
  s.takeFault cause (s.pc - 2) op false maddr

/-- A `MemoryFault` during fetch: `PC` stays at `a`, the record holds `a` and no word (R45, R206). -/
def raiseFetch (s : State) (maddr : Nat) : State :=
  s.takeFault .memoryFault s.pc 0 true maddr

/-! ## Free inputs (R6) -/

/-- One draw of the input `rnd` (R179). -/
def drawRnd (s : State) : Byte × State :=
  match s.rndIn with
  | r :: rest => (r, { s with rndIn := rest })
  | [] => (Config.rndByte s.draws, { s with draws := s.draws + 1 })

/-- One sample of the input `key_down` (R176). -/
def drawKeys (s : State) : BitVec 16 × State :=
  match s.keyIn with
  | k :: rest => (k, { s with keyIn := rest })
  | [] => (Config.keyDown s.draws, { s with draws := s.draws + 1 })

/-- One answer of the renderer (R177). -/
def drawErased (s : State) : Bool × State :=
  match s.erasedIn with
  | e :: rest => (e, { s with erasedIn := rest })
  | [] => (Config.erased s.draws, { s with draws := s.draws + 1 })

/-- `Keyboard.is_key_down` for a byte: a number above 15 names no key, so no query is sent and the key is not
held (R145, R147). -/
def keyHeld (s : State) (k : Byte) : Bool × State :=
  if k.toNat ≤ 15 then
    let q := s.drawKeys
    (q.1.getLsbD k.toNat, q.2)
  else (false, s)

/-- Send `toggle_pixel` for each point in turn and collect whether any answer was true (R143). -/
def togglePixels (s : State) : List (Coord × Coord) → Bool × State
  | [] => (false, s)
  | p :: ps =>
      let e := s.drawErased
      let rest := (e.2.emit (.toggle p.1 p.2)).togglePixels ps
      (e.1 || rest.1, rest.2)

end State

/-! ## Sprites (R141, R143) -/

/-- The points of one sprite row, left to right from column `col`: bit 7 is the leftmost pixel. `cols` is how
many columns are left. Coordinates are the plain sums, 9 bits, not reduced (R144 a). -/
def rowPoints (bits : Byte) (x y : Coord) : Nat → Nat → List (Coord × Coord)
  | _, 0 => []
  | col, cols + 1 =>
      if bits.getLsbD (7 - col) then (x + BitVec.ofNat 9 col, y) :: rowPoints bits x y (col + 1) cols
      else rowPoints bits x y (col + 1) cols

/-- The points of `rows` sprite rows at `base` from row `row` down, top to bottom, one point for each 1 bit
(R144 b). -/
def State.spritePoints (s : State) (base : Nat) (x y : Coord) : Nat → Nat → List (Coord × Coord)
  | _, 0 => []
  | row, rows + 1 =>
      rowPoints (s.readByte (base + row)) x (y + BitVec.ofNat 9 row) 0 8
        ++ s.spritePoints base x y (row + 1) rows

/-! ## Range-checked instructions -/

/-- Answer `ok` when the `len` bytes at `base` exist; otherwise the instruction `i` takes a `MemoryFault`
before any effect (R48, R206). -/
def withRange (base len : Nat) (i : Instr) (s ok : State) : Result :=
  match rangeFault base len with
  | some m => .next (s.raise .memoryFault (encode i) m)
  | none => .next ok

/-! ## Fetch -/

/-- Instruction fetch, `MemRead(PC, 2)` big-endian, with no alignment condition (R45, R50); the error is
`maddr`. -/
def fetch (s : State) : Except Nat Word :=
  match rangeFault s.pc.toNat 2 with
  | some m => .error m
  | none => .ok (wordOfBytes (s.readByte s.pc.toNat) (s.readByte (s.pc.toNat + 1)))

/-- Place a word where fetch reads next, high byte first (R49), in a core that is neither faulted nor paused
and has no other event before its step. A `PC` at which no word can be fetched is set to the entry point. -/
def State.placeWord (s : State) (w : Word) : State :=
  let a : Word := if s.pc.toNat ≤ 0xFFE then s.pc else 0x200
  { s with
    pc := a
    mem := Memory.writeBytes s.font s.mem a.toNat [w.extractLsb' 8 8, w.extractLsb' 0 8]
    paused := false
    fault := .clear
    agenda := [] }

end Sys2Proof.Machine
end

