-- ==== Sys2Proof/Machine/Flags.lean ====
section
/-! DEFINITION. The values instructions write to `VF` as a flag (spec/10_state.md R13): the byte 0x00 or 0x01,
by instruction. -/

namespace Sys2Proof.Machine

/-- A flag byte: 0x01 or 0x00, never another value (R13, R113). -/
def flagByte (b : Bool) : Byte := if b then 0x01 else 0x00

/-- `8xy4`: carry out of bit 7, `sum > 255` (R107). -/
def carryFlag (a b : Byte) : Byte := flagByte (255 < a.toNat + b.toNat)

/-- `8xy5` with `a = Vx`, `b = Vy`, and `8xy7` with the operands exchanged: strictly greater (R108, R110). -/
def greaterFlag (a b : Byte) : Byte := flagByte (b.toNat < a.toNat)

/-- `8xy6`: the bit shifted out at the right (R109). -/
def lsbFlag (a : Byte) : Byte := flagByte (a.getLsbD 0)

/-- `8xyE`: the bit shifted out at the left, as 0 or 1 (R111). -/
def msbFlag (a : Byte) : Byte := flagByte (a.getLsbD 7)

/-- `Dxyn`: collision (R143). -/
def collisionFlag (hit : Bool) : Byte := flagByte hit

/-- A flag and a result: the flag is written to `V[15]` first and the result to `V[x]` second (R15), so with
`x = F` the result stays. -/
def State.setFlagResult (s : State) (x : Reg) (flag result : Byte) : State :=
  (s.setV flagReg flag).setV x result

end Sys2Proof.Machine
end

