-- ==== Sys2Proof/Machine/Operands.lean ====
section
/-! DEFINITION. The operand forms of the instruction set (spec/30_encoding.md R63, spec/42_index_memory.md
R120): immediates are zero-extended, an address is `I` plus a natural number, register ranges are
`V[0..x]`. Every operand is read from the state before the instruction writes (R14). -/

namespace Sys2Proof.Machine

/-- `zext_16(nnn)`: an absolute byte address (R63). -/
def addrImm (nnn : BitVec 12) : Word := nnn.zeroExtend 16

/-- `zext_16` of a byte (R88, R122). -/
def zext16 (b : Byte) : Word := b.zeroExtend 16

/-- `zext_9` of a byte: the untruncated coordinate base (R144 a). -/
def coord (b : Byte) : Coord := b.zeroExtend 9

/-- The address of the built-in glyph of a byte: all 8 bits times 5 (R123). -/
def glyphAddr (b : Byte) : Word := zext16 b * 5

/-- The effective address base of the memory instructions: `I` over the natural numbers (R47, R120). -/
def State.base (s : State) : Nat := s.i.toNat

/-- The values of `V[0]` to `V[x]`, in order (R125). -/
def State.regsTo (s : State) (x : Reg) : List Byte := s.v.toList.take (x.val + 1)

/-- The decimal digits of a byte: hundreds, tens, ones (R124). -/
def bcdDigits (b : Byte) : List Byte :=
  [BitVec.ofNat 8 (b.toNat / 100), BitVec.ofNat 8 (b.toNat / 10 % 10), BitVec.ofNat 8 (b.toNat % 10)]

end Sys2Proof.Machine
end

