-- ==== Sys2Proof/Machine/Alu.lean ====
section
/-! DEFINITION. The register load and ALU instructions (spec/41_register_alu.md). Results are reduced modulo
256 by the width of `Byte` (R11, R113); none of these can fault (R100). -/

namespace Sys2Proof.Machine

/-- `6xkk` LD Vx, kk (R101). -/
def execLdByte (x : Reg) (kk : Byte) (s : State) : Result := .next (s.setV x kk)

/-- `7xkk` ADD Vx, kk (R102): no flag. -/
def execAddByte (x : Reg) (kk : Byte) (s : State) : Result := .next (s.setV x (s.v[x] + kk))

/-- `8xy0` LD Vx, Vy (R103). -/
def execLdReg (x y : Reg) (s : State) : Result := .next (s.setV x s.v[y])

/-- `8xy1` OR Vx, Vy (R104): no flag. -/
def execOrReg (x y : Reg) (s : State) : Result := .next (s.setV x (s.v[x] ||| s.v[y]))

/-- `8xy2` AND Vx, Vy (R105): no flag. -/
def execAndReg (x y : Reg) (s : State) : Result := .next (s.setV x (s.v[x] &&& s.v[y]))

/-- `8xy3` XOR Vx, Vy (R106): no flag. -/
def execXorReg (x y : Reg) (s : State) : Result := .next (s.setV x (s.v[x] ^^^ s.v[y]))

/-- `8xy4` ADD Vx, Vy (R107). -/
def execAddReg (x y : Reg) (s : State) : Result :=
  .next (s.setFlagResult x (carryFlag s.v[x] s.v[y]) (s.v[x] + s.v[y]))

/-- `8xy5` SUB Vx, Vy (R108). -/
def execSubReg (x y : Reg) (s : State) : Result :=
  .next (s.setFlagResult x (greaterFlag s.v[x] s.v[y]) (s.v[x] - s.v[y]))

/-- `8xy6` SHR Vx (R109): `y` is not read (R71). -/
def execShr (x _y : Reg) (s : State) : Result :=
  .next (s.setFlagResult x (lsbFlag s.v[x]) (s.v[x] >>> 1))

/-- `8xy7` SUBN Vx, Vy (R110). -/
def execSubnReg (x y : Reg) (s : State) : Result :=
  .next (s.setFlagResult x (greaterFlag s.v[y] s.v[x]) (s.v[y] - s.v[x]))

/-- `8xyE` SHL Vx (R111): `y` is not read (R71). -/
def execShl (x _y : Reg) (s : State) : Result :=
  .next (s.setFlagResult x (msbFlag s.v[x]) (s.v[x] <<< 1))

/-- `Cxkk` RND Vx, kk (R112): the random byte is a free input, drawn afresh. -/
def execRnd (x : Reg) (kk : Byte) (s : State) : Result :=
  let r := s.drawRnd
  .next (r.2.setV x (r.1 &&& kk))

end Sys2Proof.Machine
end

