-- ==== Sys2Proof/Machine/ControlFlow.lean ====
section
/-! DEFINITION. The control-flow instructions (spec/40_control_flow.md). Each meaning is the execute phase:
fetch is done and `PC` is already `a + 2` (R80). -/

namespace Sys2Proof.Machine

/-- `00EE` RET (R81). -/
def execRet (s : State) : Result :=
  match s.pop with
  | some (target, s') => .next (s'.setPc target)
  | none => .next (s.raise .stackUnderflow (encode .ret) 0)

/-- `1nnn` JP nnn (R82). -/
def execJp (nnn : BitVec 12) (s : State) : Result := .next (s.setPc (addrImm nnn))

/-- `2nnn` CALL nnn (R83): the pushed value is the already advanced `PC`. -/
def execCall (nnn : BitVec 12) (s : State) : Result :=
  match s.push s.pc with
  | some s' => .next (s'.setPc (addrImm nnn))
  | none => .next (s.raise .stackOverflow (encode (.call nnn)) 0)

/-- `3xkk` SE Vx, kk (R84). -/
def execSeByte (x : Reg) (kk : Byte) (s : State) : Result := .next (s.skipIf (s.v[x] == kk))

/-- `4xkk` SNE Vx, kk (R85). -/
def execSneByte (x : Reg) (kk : Byte) (s : State) : Result := .next (s.skipIf (s.v[x] != kk))

/-- `5xy0` SE Vx, Vy (R86). -/
def execSeReg (x y : Reg) (s : State) : Result := .next (s.skipIf (s.v[x] == s.v[y]))

/-- `9xy0` SNE Vx, Vy (R87). -/
def execSneReg (x y : Reg) (s : State) : Result := .next (s.skipIf (s.v[x] != s.v[y]))

/-- `Bnnn` JP V0, nnn (R88): the sum is not reduced modulo 4096. -/
def execJpV0 (nnn : BitVec 12) (s : State) : Result :=
  .next (s.setPc (addrImm nnn + zext16 s.v[(0 : Reg)]))

end Sys2Proof.Machine
end

