-- ==== Sys2Proof/Machine/Display.lean ====
section
/-! DEFINITION. The display and keyboard instructions (spec/43_display_keyboard.md): commands to the renderer
go to `State.out`, its answers and the key states are free inputs (R140). -/

namespace Sys2Proof.Machine

/-- `00E0` CLS (R142): the whole effect is the command `clear()`. -/
def execCls (s : State) : Result := .next (s.emit .clear)

/-- The commands of a draw: the points of `n` rows at `I`, from the sampled `Vx`, `Vy` (R143). -/
def State.drawPoints (s : State) (x y : Reg) (n : BitVec 4) : List (Coord × Coord) :=
  s.spritePoints s.base (coord s.v[x]) (coord s.v[y]) 0 n.toNat

/-- `Dxyn` DRW Vx, Vy, n (R143, R144): `VF` is written once, after the last toggle. -/
def execDrw (x y : Reg) (n : BitVec 4) (s : State) : Result :=
  let r := s.togglePixels (s.drawPoints x y n)
  withRange s.base n.toNat (.drw x y n) s (r.2.setV flagReg (collisionFlag r.1))

/-- `Ex9E` SKP Vx (R145). -/
def execSkp (x : Reg) (s : State) : Result :=
  let q := s.keyHeld s.v[x]
  .next (q.2.skipIf q.1)

/-- `ExA1` SKNP Vx (R146). -/
def execSknp (x : Reg) (s : State) : Result :=
  let q := s.keyHeld s.v[x]
  .next (q.2.skipIf !q.1)

/-- `Fx0A` LD Vx, K (R148): the instruction completes at once; `V[x]` is written by the key-press event. -/
def execLdVxK (x : Reg) (s : State) : Result := .next (s.pauseFor x)

end Sys2Proof.Machine
end

