-- ==== Sys2Proof/Machine/Index.lean ====
section
/-! DEFINITION. The index register and memory instructions (spec/42_index_memory.md). None changes `I` but
`Annn`, `Fx1E` and `Fx29`; the three transfers are range-checked as a whole before any effect (R120). -/

namespace Sys2Proof.Machine

/-- `Annn` LD I, nnn (R121). -/
def execLdI (nnn : BitVec 12) (s : State) : Result := .next (s.setI (addrImm nnn))

/-- `Fx1E` ADD I, Vx (R122): modulo 65536, no flag, no fault. -/
def execAddI (x : Reg) (s : State) : Result := .next (s.setI (s.i + zext16 s.v[x]))

/-- `Fx29` LD F, Vx (R123). -/
def execLdF (x : Reg) (s : State) : Result := .next (s.setI (glyphAddr s.v[x]))

/-- `Fx33` LD B, Vx (R124). -/
def execLdB (x : Reg) (s : State) : Result :=
  withRange s.base 3 (.ldB x) s (s.storeBytes s.base (bcdDigits s.v[x]))

/-- `Fx55` LD [I], Vx (R125). -/
def execStoreRegs (x : Reg) (s : State) : Result :=
  withRange s.base (x.val + 1) (.storeRegs x) s (s.storeBytes s.base (s.regsTo x))

/-- `Fx65` LD Vx, [I] (R126). -/
def execLoadRegs (x : Reg) (s : State) : Result :=
  withRange s.base (x.val + 1) (.loadRegs x) s (s.loadV x s.base)

end Sys2Proof.Machine
end

