-- ==== Sys2Proof/Machine/Timers.lean ====
section
/-! DEFINITION. The timer instructions (spec/44_timers.md). No instruction reads `ST` (R163). -/

namespace Sys2Proof.Machine

/-- `Fx07` LD Vx, DT (R160). -/
def execLdVxDT (x : Reg) (s : State) : Result := .next (s.setV x s.dt)

/-- `Fx15` LD DT, Vx (R161). -/
def execLdDTVx (x : Reg) (s : State) : Result := .next (s.setDt s.v[x])

/-- `Fx18` LD ST, Vx (R162). -/
def execLdSTVx (x : Reg) (s : State) : Result := .next (s.setSt s.v[x])

end Sys2Proof.Machine
end

