-- ==== Sys2Proof/Machine/Events.lean ====
section
/-! DEFINITION. The five events (spec/50_interfaces.md R170): reset, load, step, tick and key press. Each is
atomic (R171). The environment's choice of order is the list `State.agenda`; a claim about every state is a
claim about every order. -/

namespace Sys2Proof.Machine

/-- `Reset` (R230): every piece of the core's state goes to its reset value; no command is sent to any
collaborator (R185); the parameter `FONT` stays, and what the environment does next is not the core's to change. -/
def State.resetCore (s : State) : State :=
  { State.reset with
    font := s.font, agenda := s.agenda, rndIn := s.rndIn, keyIn := s.keyIn, erasedIn := s.erasedIn, draws := s.draws,
    out := s.out }

/-- `Load(bytes)` (R175): the bytes go to 0x200 upward and nothing else changes; more than 3584 of them are
refused, which is reported to the host and changes no state of the core (R205). -/
def State.loadProgram (s : State) (bytes : List Byte) : State :=
  if 3584 < bytes.length then s.emit .loadError
  else s.storeBytes 0x200 bytes

/-- A timer's countdown by one tick: floor at 0 (R214). -/
def countDown (t : Byte) : Byte := if 0 < t.toNat then t - 1 else t

/-- `Tick` (R214): it acts in every state of the core and on the two timers only. -/
def State.tick (s : State) : State := (s.setDt (countDown s.dt)).setSt (countDown s.st)

/-- `KeyPress(k)` (R149): ends a wait, and is ignored when the core is not waiting. -/
def State.keyPress (s : State) (k : Key) : State :=
  if s.paused then (s.setV s.keyDest (BitVec.ofNat 8 k.val)).resume else s

/-- Decode and execute a fetched word, with `PC` already advanced (R240). -/
def dispatch (op : Word) (s : State) : Result :=
  match decode op with
  | none => .next (s.raise .decodeFault op 0)
  | some i => exec i s

/-- `Step` (R240): nothing while faulted or paused; otherwise fetch, advance `PC` by 2, decode, execute. -/
def stepEvent (s : State) : Result :=
  if s.fault.valid then .next s
  else if s.paused then .next s
  else
    match fetch s with
    | .error maddr => .next (s.raiseFetch maddr)
    | .ok op => dispatch op (s.setPc (s.pc + 2))

/-- The effect of one event. -/
def deliver (e : Event) (s : State) : Result :=
  match e with
  | .reset => .next s.resetCore
  | .load bytes => .next (s.loadProgram bytes)
  | .step => stepEvent s
  | .tick => .next s.tick
  | .keyPress k => .next (s.keyPress k)

/-- One event: the next of the agenda, or `Step` when the environment has nothing else to send. -/
def advance (s : State) : Result :=
  match s.agenda with
  | [] => stepEvent s
  | e :: rest => deliver e { s with agenda := rest }

/-- `step(n)` followed by one tick: the reference driver's frame (R182, R183) as events. The driver is outside
the core; its order is one history among all. -/
def frameEvents (n : Nat) : List Event := List.replicate n .step ++ [.tick]

/-! ## Output signals (R172) -/

/-- `fault_cause`, the 3-bit code of a cause (R24, R200). -/
def FaultCause.code : FaultCause → BitVec 3
  | .none => 0
  | .decodeFault => 1
  | .stackOverflow => 2
  | .stackUnderflow => 3
  | .memoryFault => 4

/-- `ProgramTooLarge` on the host interface is code 5 and never appears in `FAULT.cause` (R205). -/
def programTooLargeCode : BitVec 3 := 5

/-- `tone_on = (ST > 0)` (R180). -/
def State.toneOn (s : State) : Bool := 0 < s.st.toNat

/-- `key_wait`, equal to `PAUSED` (R172). -/
def State.keyWait (s : State) : Bool := s.paused

end Sys2Proof.Machine
end

