-- ==== Sys2Proof/Machine/Step.lean ====
section
/-! DEFINITION. One step of the machine, and the host's way to place an instruction where it runs next. -/

namespace Sys2Proof.Machine

/-- One event of the environment (R171): the next on the agenda, or a `Step` event (R240). -/
def step (s : State) : Host.Outcome State Fault Refusal := advance s

/-- `s` with the instruction word of a table row where the very next step fetches it: log entry 6. -/
def State.withFetchWord (s : State) (nbits w : Nat) : State := s.placeWord (tableWord nbits w)

end Sys2Proof.Machine
end

