-- ==== Sys2Proof/Machine/Renderer.lean ====
section
/-! DEFINITION. The reference renderer (spec/50_interfaces.md R178): an environment model, not part of the
core, and the closed system of the core with this renderer answering. No meaning uses it: the core's
answers are free inputs (log entry 5). Its size is the open parameter `SCREEN_W`, `SCREEN_H` (spec/00_scope.md R6),
an argument throughout; wrap by modulo is the spec's own choice (log entry 7). -/

namespace Sys2Proof.Machine

/-- A value of the parameters `SCREEN_W` and `SCREEN_H` (R6): a screen has at least one pixel. -/
structure ScreenSize where
  w : Nat
  h : Nat
  wPos : 0 < w
  hPos : 0 < h
  deriving DecidableEq, Repr

/-- The default, 64 by 32, which the spec marks as general knowledge (R6, R178). -/
def defaultScreenSize : ScreenSize := ⟨64, 32, by decide, by decide⟩

/-- `FB[0..SCREEN_H-1][0..SCREEN_W-1]`, by row and then column (R178). -/
abbrev Screen (z : ScreenSize) := Vector (Vector Bool z.w) z.h

namespace Screen

variable {z : ScreenSize}

/-- The initial content, and the content after `clear()`: all 0. -/
def blank (z : ScreenSize) : Screen z := Vector.replicate z.h (Vector.replicate z.w false)

/-- The pixel a coordinate pair names, taken modulo the size. -/
def pixel (fb : Screen z) (x y : Coord) : Bool :=
  (fb[y.toNat % z.h]'(Nat.mod_lt _ z.hPos))[x.toNat % z.w]'(Nat.mod_lt _ z.wPos)

/-- Set the pixel a coordinate pair names. -/
def setPixel (fb : Screen z) (x y : Coord) (b : Bool) : Screen z :=
  fb.set (y.toNat % z.h)
    ((fb[y.toNat % z.h]'(Nat.mod_lt _ z.hPos)).set (x.toNat % z.w) b (Nat.mod_lt _ z.wPos))
    (Nat.mod_lt _ z.hPos)

/-- `toggle_pixel(x, y)`: the answer is the old pixel, true if it went from set to clear. -/
def toggle (fb : Screen z) (x y : Coord) : Bool × Screen z :=
  let old := fb.pixel x y
  (old, fb.setPixel x y (!old))

/-- Run a stream of commands: the answers to its toggles, in order, and the screen after it. -/
def run (fb : Screen z) : List Output → List Bool × Screen z
  | [] => ([], fb)
  | .clear :: os => (blank z).run os
  | .toggle x y :: os =>
      let t := fb.toggle x y
      let r := t.2.run os
      (t.1 :: r.1, r.2)
  | .loadError :: os => fb.run os

end Screen

/-- What `t` has sent that `s` had not. -/
def newOutput (s t : State) : List Output := t.out.drop s.out.length

/-- One step of the closed system of the core and the reference renderer. Which commands a step sends does not
depend on their answers, so they are read off a dry run, answered by the renderer, and the step is run with
those answers. -/
def stepOnScreen {z : ScreenSize} (s : State) (fb : Screen z) : Host.Outcome (State × Screen z) Fault Refusal :=
  match step s with
  | .fault r => .fault r
  | .refused r => .refused r
  | .next dry =>
      let r := fb.run (newOutput s dry)
      match step { s with erasedIn := r.1 } with
      | .next t => .next (t, r.2)
      | .fault f => .fault f
      | .refused f => .refused f

/-- `k` steps of the closed system. -/
def runOnScreen {z : ScreenSize} : Nat → State → Screen z → Host.Outcome (State × Screen z) Fault Refusal
  | 0, s, fb => .next (s, fb)
  | k + 1, s, fb =>
      match stepOnScreen s fb with
      | .next p => runOnScreen k p.1 p.2
      | .fault f => .fault f
      | .refused f => .refused f

end Sys2Proof.Machine
end

