-- ==== Sys2Proof/Safety.lean ====
section
/-! DEFINITION. What claims are stated in: the invariant of spec/10_state.md R30, what counts as a run that
has not gone wrong (spec/60_exceptions.md R208), the end of a run, and the frame predicates. -/

namespace Sys2Proof.Machine

/-- The invariant of R30: what every reachable state satisfies and the types do not already say. -/
structure State.Inv (s : State) : Prop where
  /-- memory is in canonical form -/
  memWf : s.memWf = true
  /-- `PC` is in 0..0x10FE -/
  pcMax : s.pc.toNat ≤ 0x10FE
  /-- each live stack entry is the address after a `2nnn` that fetch accepted -/
  entries : ∀ k : Fin 16, k.val < s.sp.val → 0x0002 ≤ s.stack[k].toNat ∧ s.stack[k].toNat ≤ 0x1000
  /-- `PAUSED` and `FAULT.valid` are never both 1 -/
  notBoth : ¬ (s.paused = true ∧ s.fault.valid = true)
  /-- a record that is not valid has all fields 0, and a valid one has a cause -/
  record : if s.fault.valid then s.fault.cause ≠ .none else s.fault = .clear

/-- A run that faults has gone wrong (R208): the safe states are those with no fault latched. -/
def State.Safe (s : State) : Prop := s.fault.valid = false

/-- A conventional end of a run (R250, the spec's suggestion in D29): `PC` holds the address of a `1nnn` that
jumps to itself, in a core that runs. -/
def State.AtSelfJump (s : State) : Prop :=
  s.fault.valid = false ∧ s.paused = false ∧
    ∃ nnn : BitVec 12, fetch s = .ok (encode (.jp nnn)) ∧ nnn.toNat = s.pc.toNat

/-- The renderer's answers to the next `m` toggles (R177): those the environment has listed, then free values. -/
def State.answers (s : State) (m : Nat) : List Bool :=
  s.erasedIn.take m ++ (List.range (m - s.erasedIn.length)).map fun k => Config.erased (s.draws + k)

/-- `t` is `s` after its answers to `m` toggles have been taken. -/
def State.afterAnswers (s : State) (m : Nat) : State :=
  { s with erasedIn := s.erasedIn.drop m, draws := s.draws + (m - s.erasedIn.length) }

/-- `r` is the value of `rnd` a draw in `s` takes, and `t` the state after it (R179): any listed value, or a
free one. -/
def RndDrawn (s : State) (r : Byte) (t : State) : Prop :=
  (∃ rest, s.rndIn = r :: rest ∧ t = { s with rndIn := rest })
    ∨ (s.rndIn = [] ∧ r = Config.rndByte s.draws ∧ t = { s with draws := s.draws + 1 })

/-- `k` is the value of `key_down` a query in `s` sees, and `t` the state after it (R176). -/
def KeysSeen (s : State) (k : BitVec 16) (t : State) : Prop :=
  (∃ rest, s.keyIn = k :: rest ∧ t = { s with keyIn := rest })
    ∨ (s.keyIn = [] ∧ k = Config.keyDown s.draws ∧ t = { s with draws := s.draws + 1 })

/-- Every byte of memory reads as before. -/
def SameBytes (s t : State) : Prop := ∀ a, t.readByte a = s.readByte a

/-- FRAME: `t` is `s` but for general registers in `w`: every other register (`VF` among them), the special
registers, the stack, the timers, the wait state, the fault record, the environment's fields and every byte of
memory are as before. -/
def OnlyRegs (w : Reg → Prop) (s t : State) : Prop :=
  t = { s with v := t.v } ∧ (∀ r : Reg, ¬ w r → t.v[r] = s.v[r]) ∧ SameBytes s t

/-- FRAME: `t` is `s` but for `PC`. -/
def OnlyPc (s t : State) : Prop := t = { s with pc := t.pc } ∧ SameBytes s t

/-- FRAME: `t` is `s` but for the bytes at `base` to `base + len - 1`. -/
def OnlyBytes (base len : Nat) (s t : State) : Prop :=
  t = { s with mem := t.mem }
    ∧ ∀ a, ¬ (base ≤ a ∧ a < base + len) → t.readByte a = s.readByte a

/-- FRAME: `t` is `s` but for a latched fault record (R206). -/
def OnlyFault (s t : State) : Prop := t = { s with fault := t.fault } ∧ SameBytes s t

/-! ## The tables of the spec about all instructions -/

/-- Which instructions write which general registers: the write rows of the table of R12. -/
def writesReg (i : Instr) (r : Reg) : Prop :=
  match i with
  | .ldByte x _ | .addByte x _ | .ldReg x _ | .orReg x _ | .andReg x _ | .xorReg x _ | .rnd x _
  | .ldVxDT x => r = x
  | .addReg x _ | .subReg x _ | .shr x _ | .subnReg x _ | .shl x _ => r = x ∨ r = flagReg
  | .drw _ _ _ => r = flagReg
  | .loadRegs x => r ≤ x
  | .cls | .ret | .jp _ | .call _ | .seByte _ _ | .sneByte _ _ | .seReg _ _ | .sneReg _ _ | .ldI _
  | .jpV0 _ | .skp _ | .sknp _ | .ldVxK _ | .ldDTVx _ | .ldSTVx _ | .addI _ | .ldF _ | .ldB _
  | .storeRegs _ => False

/-- The key a byte names is held (R145, R147): it is at most 15 and its bit of the sampled `key_down` is 1. -/
def KeyIsHeld (s : State) (k : Byte) : Prop :=
  k.toNat ≤ 15 ∧ ∃ keys t, KeysSeen s keys t ∧ keys.getLsbD k.toNat = true

/-- A skip: `PC` is `a + 4` if the condition holds, else `a + 2`. -/
def SkipsOn (c : Prop) (a : Word) (t : State) : Prop := (c → t.pc = a + 4) ∧ (¬ c → t.pc = a + 2)

/-- How each instruction, fetched in `s` at `a = PC`, leaves `PC`: the table of R16. -/
def PcLeft (i : Instr) (s t : State) : Prop :=
  match i with
  | .seByte x kk => SkipsOn (s.v[x] = kk) s.pc t
  | .sneByte x kk => SkipsOn (s.v[x] ≠ kk) s.pc t
  | .seReg x y => SkipsOn (s.v[x] = s.v[y]) s.pc t
  | .sneReg x y => SkipsOn (s.v[x] ≠ s.v[y]) s.pc t
  | .skp x => SkipsOn (KeyIsHeld s s.v[x]) s.pc t
  | .sknp x => SkipsOn (¬ KeyIsHeld s s.v[x]) s.pc t
  | .jp nnn => t.pc.toNat = nnn.toNat
  | .call nnn => t.pc.toNat = nnn.toNat ∧ t.sp.val = s.sp.val + 1 ∧ t.stack.toList[s.sp.val]? = some (s.pc + 2)
  | .jpV0 nnn => t.pc.toNat = nnn.toNat + s.v[(0 : Reg)].toNat
  | .ret => s.sp.val = t.sp.val + 1 ∧ s.stack.toList[t.sp.val]? = some t.pc
  | .ldVxK _ => t.pc = s.pc + 2 ∧ t.paused = true
  | .cls | .ldByte _ _ | .addByte _ _ | .ldReg _ _ | .orReg _ _ | .andReg _ _ | .xorReg _ _ | .addReg _ _
  | .subReg _ _ | .shr _ _ | .subnReg _ _ | .shl _ _ | .ldI _ | .rnd _ _ | .drw _ _ _ | .ldVxDT _
  | .ldDTVx _ | .ldSTVx _ | .addI _ | .ldF _ | .ldB _ | .storeRegs _ | .loadRegs _ => t.pc = s.pc + 2

/-- Which fault the execute phase of an instruction raises, and the `maddr` it records: the table of R200 with
the conditions of R81, R83, R143 and R124 to R127. -/
def faultOf (i : Instr) (s : State) : Option (FaultCause × Nat) :=
  match i with
  | .ret => if s.sp.val = 0 then some (.stackUnderflow, 0) else none
  | .call _ => if s.sp.val = 16 then some (.stackOverflow, 0) else none
  | .drw _ _ n =>
      if 0 < n.toNat ∧ 0xFFF < s.i.toNat + n.toNat - 1 then some (.memoryFault, max s.i.toNat 0x1000) else none
  | .ldB _ => if 0xFFF < s.i.toNat + 2 then some (.memoryFault, max s.i.toNat 0x1000) else none
  | .storeRegs x | .loadRegs x =>
      if 0xFFF < s.i.toNat + x.val then some (.memoryFault, max s.i.toNat 0x1000) else none
  | .cls | .jp _ | .seByte _ _ | .sneByte _ _ | .seReg _ _ | .ldByte _ _ | .addByte _ _ | .ldReg _ _
  | .orReg _ _ | .andReg _ _ | .xorReg _ _ | .addReg _ _ | .subReg _ _ | .shr _ _ | .subnReg _ _ | .shl _ _
  | .sneReg _ _ | .ldI _ | .jpV0 _ | .rnd _ _ | .skp _ | .sknp _ | .ldVxDT _ | .ldVxK _ | .ldDTVx _
  | .ldSTVx _ | .addI _ | .ldF _ => none

/-- The commands of a draw, row by row and left to right: one `toggle_pixel(Vx + column, Vy + row)` for each 1
bit of the `n` bytes at `I` (R143, R144). -/
def drawCommands (s : State) (x y : Reg) (n : BitVec 4) : List Output :=
  (List.range n.toNat).flatMap fun row =>
    (List.range 8).filterMap fun col =>
      if (s.readByte (s.i.toNat + row)).getLsbD (7 - col) then
        some (.toggle (BitVec.ofNat 9 (s.v[x].toNat + col)) (BitVec.ofNat 9 (s.v[y].toNat + row)))
      else none

/-- The core is ready to run an instruction in this step: no other event is due, no fault is latched, it is not
waiting for a key, and both bytes at `PC` exist. -/
def State.Ready (s : State) : Prop :=
  s.agenda = [] ∧ s.fault.valid = false ∧ s.paused = false ∧ s.pc.toNat ≤ 0xFFE

/-- The big-endian word at `PC` (R45). -/
def State.wordAtPc (s : State) : Word :=
  wordOfBytes (s.readByte s.pc.toNat) (s.readByte (s.pc.toNat + 1))

end Sys2Proof.Machine
end

