-- ==== Sys2Proof/Certificates/Slice0/Obligations.lean ====
section
/-! DEFINITION. The statements about the Processing Unit, one for each obligation of OBLIGATIONS.json. `OnlyRegs`,
`OnlyPc`, `OnlyBytes`, `OnlyFault`, `SameBytes` are the frames of Sys2Proof/Safety.lean; a meaning is entered with
`PC` already at `a + 2` (spec/40_control_flow.md R80). -/

open Sys2Proof Sys2Proof.Machine

/-! ## Encoding and decoding -/

/-- Every instruction, with every operand at every value its field admits, decodes from its own word and from its
two bytes in memory order. -/
def Obligations.DecodeOfEncode : Prop :=
  (∀ i : Instr, decode (encode i) = some i) ∧
  (∀ (i : Instr) (rest : List Byte), decodeBytes (encodeBytes i ++ rest) = .ok (i, rest))

/-- No bit of a legal word is dropped: encoding what a word decodes to gives the word back. -/
def Obligations.EncodeOfDecode : Prop :=
  ∀ (w : Word) (i : Instr), decode w = some i → encode i = w

/-- R65: every word matches exactly one row of the opcode map and decodes to an instruction of that row, or matches
none and is illegal; no two of the 34 rows overlap. -/
def Obligations.EveryWordMatchesOneRowOrNone : Prop :=
  opcodeRows.length = 34 ∧ opcodeRows.Nodup ∧
  ∀ w : Word,
    (decode w = none ∧ ∀ r ∈ opcodeRows, r.covers w = false) ∨
    (∃ i, decode w = some i ∧ i.row ∈ opcodeRows ∧ ∀ r ∈ opcodeRows, (r.covers w = true ↔ r = i.row))

/-- The illegal words by group, the table of R67. Group 0 rests on the spec's decision D1 and groups 5 and 9 on D2.
-/
def Obligations.IllegalWordsByGroup : Prop :=
  ∀ w : Word, decode w = none ↔
    (fieldT w = 0x0 ∧ w ≠ 0x00E0 ∧ w ≠ 0x00EE) ∨
    ((fieldT w = 0x5 ∨ fieldT w = 0x9) ∧ fieldN w ≠ 0) ∨
    (fieldT w = 0x8 ∧ fieldN w ∈ [0x8, 0x9, 0xA, 0xB, 0xC, 0xD, 0xF]) ∨
    (fieldT w = 0xE ∧ fieldKK w ∉ [0x9E, 0xA1]) ∨
    (fieldT w = 0xF ∧ fieldKK w ∉ [0x07, 0x0A, 0x15, 0x18, 0x1E, 0x29, 0x33, 0x55, 0x65])

/-- Words written out from the encodings of R66, one or more for each format. That the last two, 0x0000 and 0x5121,
are illegal is the spec's decisions D1 and D2 (R68, R69; log entry 12). -/
def Obligations.SampleWordsDecode : Prop :=
  decode 0b0000000011100000 = some .cls ∧
  decode 0b0010101010111100 = some (.call 0xABC) ∧
  decode 0b0011001100101010 = some (.seByte 3 0x2A) ∧
  decode 0b1000000100101110 = some (.shl 1 2) ∧
  decode 0b1101000100101010 = some (.drw 1 2 0xA) ∧
  decode 0b1111111101100101 = some (.loadRegs 0xF) ∧
  decode 0b0000000000000000 = none ∧ decode 0b0101000100100001 = none

/-! ## The step -/

/-- When the word at `PC` decodes to `i`, the step is `i`'s meaning with `PC` already advanced by 2 (R240, R80).
That a step with an empty agenda is a `Step` event is log entry 2. -/
def Obligations.StepRunsTheDecodedInstruction : Prop :=
  ∀ (s : State) (i : Instr), s.Ready → decode s.wordAtPc = some i →
    step s = exec i { s with pc := s.pc + 2 }

/-- R240, the step algorithm, as the answer to a `Step` event in every state: nothing while faulted or paused; a
fetch fault with `PC` unchanged; a decode fault with `PC` advanced; otherwise the instruction's meaning, and a fault
it raises records the address and the fetched word. The layout of the record is the spec's decision D7. -/
def Obligations.StepFollowsTheAlgorithm : Prop :=
  ∀ s : State,
    (s.fault.valid = true → deliver .step s = .next s) ∧
    (s.paused = true → deliver .step s = .next s) ∧
    (s.fault.valid = false → s.paused = false →
      (0xFFE < s.pc.toNat →
        deliver .step s = .next { s with fault :=
          ⟨true, .memoryFault, s.pc, 0, true, BitVec.ofNat 17 (max s.pc.toNat 0x1000)⟩ }) ∧
      (s.pc.toNat ≤ 0xFFE → decode s.wordAtPc = none →
        deliver .step s = .next { s with pc := s.pc + 2,
                                         fault := ⟨true, .decodeFault, s.pc, s.wordAtPc, false, 0⟩ }) ∧
      (∀ i, s.pc.toNat ≤ 0xFFE → decode s.wordAtPc = some i →
        deliver .step s = exec i { s with pc := s.pc + 2 } ∧
        ∀ t, deliver .step s = .next t → t.fault.valid = true →
          t.fault.addr = s.pc ∧ t.fault.opcode = s.wordAtPc))

/-- R45, instruction fetch: two bytes at `PC` and `PC + 1`, big-endian, at any parity; otherwise the fetch fault
with the lowest missing address, and nothing else happens (the record and `PC` are the spec's decisions D7 and D8,
log entry 8). -/
def Obligations.FetchIsBigEndianOrFaults : Prop :=
  ∀ s : State,
    (s.pc.toNat ≤ 0xFFE → ∃ op, fetch s = .ok op ∧
      op.extractLsb' 8 8 = s.readByte s.pc.toNat ∧
      op.extractLsb' 0 8 = s.readByte (s.pc.toNat + 1)) ∧
    (s.fault.valid = false → s.paused = false → 0xFFF < s.pc.toNat → ∃ t, deliver .step s = .next t ∧
      OnlyFault s t ∧ t.fault.valid = true ∧ t.fault.cause = .memoryFault ∧ t.fault.fetch = true ∧
      t.fault.maddr.toNat = s.pc.toNat) ∧
    (s.fault.valid = false → s.paused = false → s.pc.toNat = 0xFFF → ∃ t, deliver .step s = .next t ∧
      OnlyFault s t ∧ t.fault.valid = true ∧ t.fault.cause = .memoryFault ∧ t.fault.fetch = true ∧
      t.fault.maddr.toNat = 0x1000)

/-- Every event ends in a next state: the model never stops. Every `Step` terminates (R184), no state is without a
value (R29, the spec's decision D27) and raising a fault ends the event with the record latched (R207, D7). That a
fault is a next state is the model's reading, log entry 8, and that a step is the next event of the agenda is log
entry 2. -/
def Obligations.EveryEventAnswersANextState : Prop :=
  (∀ s : State, ∃ t, step s = .next t) ∧ ∀ (e : Event) (s : State), ∃ t, deliver e s = .next t

/-! ## Whole-machine rules -/

/-- The invariant of R30 holds at reset, with memory in the model's canonical form (log entry 4) and a clear fault
record (the spec's decision D7). -/
def Obligations.InvariantHoldsAtReset : Prop := State.reset.Inv

/-- The invariant of R30 is kept by every step, whatever the environment does (any agenda, log entry 2). Two clauses
are not R30's: the canonical form of memory is the model's (log entry 4), and that the record is clear exactly when
not valid follows from R24 and R207 (the spec's decision D7). -/
def Obligations.InvariantKeptByEveryStep : Prop :=
  ∀ s t : State, s.Inv → step s = .next t → t.Inv

/-- R12, the write rows: an instruction not listed for a register does not write it. -/
def Obligations.RegistersWrittenByTheTable : Prop :=
  ∀ (i : Instr) (s t : State) (r : Reg), exec i s = .next t → ¬ writesReg i r → t.v[r] = s.v[r]

/-- How each instruction leaves `PC` (R16). A key number above 15 counts as not held by the spec's decision D11;
that a step with an empty agenda is a `Step` event is log entry 2. -/
def Obligations.PcLeftAsTheTableSays : Prop :=
  ∀ (s t : State) (i : Instr), s.Ready → decode s.wordAtPc = some i → step s = .next t →
    t.fault.valid = false → PcLeft i s t

/-- Which instructions touch which special register, memory and the renderer: `I` (R18), the stack (R19), the timers
(R20, R21), the wait state (R22, R23), memory (R43), the commands (R177; their record `out` is log entry 3), the
free inputs (R176, R177, R179; their lists are log entry 5). That no instruction changes `font` is the model's
choice: the spec leaves the parameter open (R6) and the model fixes it for a machine, log entry 1. That none changes
`agenda` is the model's choice too: the environment orders the events (R171) and the model lists them, log entry 2.
-/
def Obligations.SpecialStateHasItsWriters : Prop :=
  ∀ (i : Instr) (s t : State), exec i s = .next t →
    ((∀ nnn x, i ≠ .ldI nnn ∧ i ≠ .addI x ∧ i ≠ .ldF x) → t.i = s.i) ∧
    ((∀ nnn, i ≠ .call nnn ∧ i ≠ .ret) → t.sp = s.sp ∧ t.stack = s.stack) ∧
    ((∀ x, i ≠ .ldDTVx x) → t.dt = s.dt) ∧
    ((∀ x, i ≠ .ldSTVx x) → t.st = s.st) ∧
    ((∀ x, i ≠ .ldVxK x) → t.paused = s.paused ∧ t.keyDest = s.keyDest) ∧
    ((∀ x, i ≠ .ldB x ∧ i ≠ .storeRegs x) → t.mem = s.mem) ∧
    ((∀ x y n, i ≠ .cls ∧ i ≠ .drw x y n) → t.out = s.out) ∧
    ((∀ x kk, i ≠ .rnd x kk) → t.rndIn = s.rndIn) ∧
    ((∀ x, i ≠ .skp x ∧ i ≠ .sknp x) → t.keyIn = s.keyIn) ∧
    ((∀ x y n, i ≠ .drw x y n) → t.erasedIn = s.erasedIn) ∧
    t.agenda = s.agenda ∧ t.font = s.font

/-- The faults of the execute phase (R200, R206, R209): exactly the listed conditions raise one, the whole state is
as before but for the record, and the record holds the cause, the instruction's address and word and the lowest
missing address. Record layout and precision are the spec's decisions D7, D8, D9. -/
def Obligations.FaultsArePreciseAndExactlyTheListed : Prop :=
  ∀ (i : Instr) (s : State), ∃ t, exec i s = .next t ∧
    match faultOf i s with
    | some (c, m) => t = { s with fault := ⟨true, c, s.pc - 2, encode i, false, BitVec.ofNat 17 m⟩ }
    | none => t.fault = s.fault

/-- A latched fault stays until a reset (R207, R208): whatever events other than `Reset` come, in any number and
order, the record, the registers, `PC`, `I`, the stack and the wait state do not change (the spec's decision D7; the
events to come are the model's agenda, log entry 2). -/
def Obligations.FaultStaysUntilReset : Prop :=
  ∀ (n : Nat) (s : State), s.fault.valid = true → s.paused = false → (∀ e ∈ s.agenda, e ≠ .reset) →
    ∃ t, core.run n s = .next t ∧ t.fault = s.fault ∧ t.v = s.v ∧ t.pc = s.pc ∧ t.i = s.i ∧ t.sp = s.sp ∧
      t.stack = s.stack ∧ t.paused = false ∧ t.keyDest = s.keyDest

/-- The wait of `Fx0A` lasts until a key press or a reset (R150, R216): whatever steps, ticks and loads come, the
core stays waiting for the same register and executes nothing (the latch is the spec's decision D12; a load in mid-
run is D19; the events to come are the model's agenda, log entry 2). -/
def Obligations.WaitLastsUntilKeyPressOrReset : Prop :=
  ∀ (n : Nat) (s : State), s.fault.valid = false → s.paused = true →
    (∀ e ∈ s.agenda, e ≠ .reset ∧ ∀ k, e ≠ .keyPress k) →
    ∃ t, core.run n s = .next t ∧ t.paused = true ∧ t.keyDest = s.keyDest ∧ t.fault = s.fault ∧ t.v = s.v ∧
      t.pc = s.pc ∧ t.i = s.i ∧ t.sp = s.sp ∧ t.stack = s.stack

/-- No instruction reads `ST` (R21, R163), `KEY_DEST` (R23) or `FAULT` (R24, R208): changing them changes nothing
else that an instruction does. -/
def Obligations.HiddenStateIsNotRead : Prop :=
  ∀ (i : Instr) (s : State) (b : Byte) (r : Reg) (f : FaultRecord), ∃ t u, exec i s = .next t ∧
    exec i { s with st := b, keyDest := r, fault := f } = .next u ∧
    u = { t with st := u.st, keyDest := u.keyDest, fault := u.fault }

/-- Canonical memories that read alike are equal, whatever the font (log entries 4 and 1). -/
def Obligations.CanonicalMemoryIsUnique : Prop :=
  ∀ (f : Font) (m m' : Memory), Memory.wf f m = true → Memory.wf f m' = true →
    (∀ a, Memory.read f m a = Memory.read f m' a) → m = m'

/-! ## Control flow -/

/-- `00EE` (R81): pops the stack into `PC`; with an empty stack the fault, and the stack is unchanged. That the
fault is a next state in which the record is latched and nothing else, `PC` included, changes is R206 and R207, the
spec's decisions D7 and D8 (log entries 8 and 20). -/
def Obligations.ReturnPopsOrUnderflows : Prop :=
  ∀ s : State,
    (∀ h : 0 < s.sp.val, ∃ t, exec .ret s = .next t ∧ t.sp.val = s.sp.val - 1 ∧
      t.pc = s.stack[s.sp.val - 1]'(by omega) ∧ t = { s with pc := t.pc, sp := t.sp } ∧ SameBytes s t) ∧
    (s.sp.val = 0 → ∃ t, exec .ret s = .next t ∧ OnlyFault s t ∧ t.fault.valid = true ∧
      t.fault.cause = .stackUnderflow)

/-- R82, `1nnn`: `PC` is the immediate address, zero-extended, and nothing else changes. -/
def Obligations.JumpSetsPc : Prop :=
  ∀ (s : State) (nnn : BitVec 12), ∃ t, exec (.jp nnn) s = .next t ∧ t.pc.toNat = nnn.toNat ∧ OnlyPc s t

/-- `2nnn` (R83): pushes the advanced `PC` and jumps; with 16 entries the fault, nothing pushed and no jump. That
the fault is a next state in which the record is latched and nothing else, `PC` included, changes is R206 and R207,
the spec's decisions D7 and D8 (log entries 8 and 20). -/
def Obligations.CallPushesOrOverflows : Prop :=
  ∀ (s : State) (nnn : BitVec 12),
    (∀ h : s.sp.val < 16, ∃ t, exec (.call nnn) s = .next t ∧ t.sp.val = s.sp.val + 1 ∧ t.stack[s.sp.val] = s.pc ∧
      (∀ k : Fin 16, k.val ≠ s.sp.val → t.stack[k] = s.stack[k]) ∧ t.pc.toNat = nnn.toNat ∧
      t = { s with pc := t.pc, sp := t.sp, stack := t.stack } ∧ SameBytes s t) ∧
    (s.sp.val = 16 → ∃ t, exec (.call nnn) s = .next t ∧ OnlyFault s t ∧ t.fault.valid = true ∧
      t.fault.cause = .stackOverflow)

/-- A return undoes a call (D0's example E7): from any `PC` inside the subroutine it goes back to the instruction
after the call, with the older entries in place. -/
def Obligations.ReturnUndoesCall : Prop :=
  ∀ (s : State) (nnn : BitVec 12) (p : Word), s.sp.val < 16 →
    ∃ t u, exec (.call nnn) s = .next t ∧ exec .ret { t with pc := p } = .next u ∧ u.pc = s.pc ∧ u.sp = s.sp ∧
      (∀ k : Fin 16, k.val < s.sp.val → u.stack[k] = s.stack[k]) ∧ u.v = s.v ∧ u.i = s.i ∧ SameBytes s u

/-- R84 and R85, the skips on a byte: `PC` advances by 2 more exactly when the condition holds. -/
def Obligations.SkipsOnByte : Prop :=
  ∀ (s : State) (x : Reg) (kk : Byte),
    (∃ t, exec (.seByte x kk) s = .next t ∧ t.pc = (if s.v[x] = kk then s.pc + 2 else s.pc) ∧ OnlyPc s t) ∧
    (∃ t, exec (.sneByte x kk) s = .next t ∧ t.pc = (if s.v[x] = kk then s.pc else s.pc + 2) ∧ OnlyPc s t)

/-- R86 and R87, the skips on two registers; with `x = y` one always skips and the other never. -/
def Obligations.SkipsOnRegister : Prop :=
  ∀ (s : State) (x y : Reg),
    (∃ t, exec (.seReg x y) s = .next t ∧ t.pc = (if s.v[x] = s.v[y] then s.pc + 2 else s.pc) ∧ OnlyPc s t) ∧
    (∃ t, exec (.sneReg x y) s = .next t ∧ t.pc = (if s.v[x] = s.v[y] then s.pc else s.pc + 2) ∧ OnlyPc s t) ∧
    (x = y → exec (.seReg x y) s = .next { s with pc := s.pc + 2 } ∧ exec (.sneReg x y) s = .next s)

/-- R88, `Bnnn`: the sum of the immediate and `V0`, not reduced modulo 4096; a sum above 0xFFE makes the next fetch
fault, with the lowest missing address. -/
def Obligations.IndexedJumpAddsV0 : Prop :=
  ∀ (s : State) (nnn : BitVec 12), ∃ t, exec (.jpV0 nnn) s = .next t ∧
    t.pc.toNat = nnn.toNat + s.v[(0 : Reg)].toNat ∧ OnlyPc s t ∧
    (0xFFE < t.pc.toNat → fetch t = .error (max t.pc.toNat 0x1000))

/-- A self-jump is an endless loop that changes nothing (R82, R250; the end of a run is the spec's suggestion in
D29; that a step with an empty agenda is a `Step` event is log entry 2). -/
def Obligations.SelfJumpChangesNothing : Prop :=
  ∀ (n : Nat) (s : State), s.AtSelfJump → s.agenda = [] → core.run n s = .next s

/-! ## Registers and ALU -/

/-- R101, R102, R103: the loads and the flagless add; with any destination, `VF` among them. -/
def Obligations.LoadsAndImmediateAdd : Prop :=
  ∀ (s : State) (x y : Reg) (kk : Byte),
    (∃ t, exec (.ldByte x kk) s = .next t ∧ t.v[x] = kk ∧ OnlyRegs (· = x) s t) ∧
    (∃ t, exec (.addByte x kk) s = .next t ∧ t.v[x].toNat = (s.v[x].toNat + kk.toNat) % 256 ∧
      OnlyRegs (· = x) s t) ∧
    (∃ t, exec (.ldReg x y) s = .next t ∧ t.v[x] = s.v[y] ∧ OnlyRegs (· = x) s t)

/-- `8xy1`, `8xy2`, `8xy3`, bit by bit (R104 to R106). That `VF` is unchanged is the spec's decision D16. -/
def Obligations.LogicBitByBit : Prop :=
  ∀ (s : State) (x y : Reg),
    (∃ t, exec (.orReg x y) s = .next t ∧ OnlyRegs (· = x) s t ∧
      ∀ k < 8, t.v[x].getLsbD k = (s.v[x].getLsbD k || s.v[y].getLsbD k)) ∧
    (∃ t, exec (.andReg x y) s = .next t ∧ OnlyRegs (· = x) s t ∧
      ∀ k < 8, t.v[x].getLsbD k = (s.v[x].getLsbD k && s.v[y].getLsbD k)) ∧
    (∃ t, exec (.xorReg x y) s = .next t ∧ OnlyRegs (· = x) s t ∧
      ∀ k < 8, t.v[x].getLsbD k = (s.v[x].getLsbD k ^^ s.v[y].getLsbD k))

/-- `8xy4` (R107): the sum modulo 256 and the carry. Operands sampled first and the result last when `x = F` are the
spec's decisions D5 and D6. -/
def Obligations.AddSetsCarry : Prop :=
  ∀ (s : State) (x y : Reg), ∃ t, exec (.addReg x y) s = .next t ∧
    t.v[x].toNat = (s.v[x].toNat + s.v[y].toNat) % 256 ∧
    (x ≠ flagReg → t.v[flagReg] = if 255 < s.v[x].toNat + s.v[y].toNat then 0x01 else 0x00) ∧
    OnlyRegs (fun r => r = x ∨ r = flagReg) s t

/-- `8xy5` and `8xy7` (R108, R110): the difference modulo 256 and the strictly-greater flag. With `x = F` or `y = F`
as D5 and D6 decide. -/
def Obligations.SubtractionsSetGreater : Prop :=
  ∀ (s : State) (x y : Reg),
    (∃ t, exec (.subReg x y) s = .next t ∧
      t.v[x].toNat = (if s.v[y].toNat ≤ s.v[x].toNat then s.v[x].toNat - s.v[y].toNat
        else 256 + s.v[x].toNat - s.v[y].toNat) ∧
      (x ≠ flagReg → t.v[flagReg] = if s.v[y].toNat < s.v[x].toNat then 0x01 else 0x00) ∧
      OnlyRegs (fun r => r = x ∨ r = flagReg) s t) ∧
    (∃ t, exec (.subnReg x y) s = .next t ∧
      t.v[x].toNat = (if s.v[x].toNat ≤ s.v[y].toNat then s.v[y].toNat - s.v[x].toNat
        else 256 + s.v[y].toNat - s.v[x].toNat) ∧
      (x ≠ flagReg → t.v[flagReg] = if s.v[x].toNat < s.v[y].toNat then 0x01 else 0x00) ∧
      OnlyRegs (fun r => r = x ∨ r = flagReg) s t)

/-- `8xy6` and `8xyE` (R109, R111): a logical shift of `Vx` by one place and the bit shifted out, 0 or 1; the field
`y` is ignored (R71). With `x = F` as D5 and D6 decide; that `Vy` is not read is D16. -/
def Obligations.ShiftsSetTheBitShiftedOut : Prop :=
  ∀ (s : State) (x y z : Reg),
    (∃ t, exec (.shr x y) s = .next t ∧ exec (.shr x z) s = .next t ∧ t.v[x].toNat = s.v[x].toNat / 2 ∧
      (x ≠ flagReg → t.v[flagReg].toNat = s.v[x].toNat % 2) ∧ OnlyRegs (fun r => r = x ∨ r = flagReg) s t) ∧
    (∃ t, exec (.shl x y) s = .next t ∧ exec (.shl x z) s = .next t ∧
      t.v[x].toNat = (2 * s.v[x].toNat) % 256 ∧
      (x ≠ flagReg → t.v[flagReg].toNat = s.v[x].toNat / 128) ∧ OnlyRegs (fun r => r = x ∨ r = flagReg) s t)

/-- `Cxkk` (R112): the random byte, whatever it is, masked. That it is a free draw is the spec's decision D14; its
form is log entry 5. -/
def Obligations.RandomIsMaskedFreeByte : Prop :=
  ∀ (s : State) (x : Reg) (kk : Byte),
    (∃ r u t, RndDrawn s r u ∧ exec (.rnd x kk) s = .next t ∧ t.v[x] = r &&& kk ∧ OnlyRegs (· = x) u t) ∧
    (∀ (r : Byte) (rest : List Byte), ∃ t, exec (.rnd x kk) { s with rndIn := r :: rest } = .next t ∧
      t.v[x] = r &&& kk ∧ t.rndIn = rest)

/-! ## Index and memory -/

/-- R121, `Annn`. -/
def Obligations.LoadIndexImmediate : Prop :=
  ∀ (s : State) (nnn : BitVec 12), ∃ t, exec (.ldI nnn) s = .next t ∧ t.i.toNat = nnn.toNat ∧
    t = { s with i := t.i } ∧ SameBytes s t

/-- `Fx1E` modulo 65536 (R122, the spec's decision D4) and `Fx29` with all 8 bits (R123, D15): no flag, no fault. -/
def Obligations.IndexArithmetic : Prop :=
  ∀ (s : State) (x : Reg),
    (∃ t, exec (.addI x) s = .next t ∧ t.i.toNat = (s.i.toNat + s.v[x].toNat) % 65536 ∧
      t = { s with i := t.i } ∧ SameBytes s t) ∧
    (∃ t, exec (.ldF x) s = .next t ∧ t.i.toNat = 5 * s.v[x].toNat ∧ t = { s with i := t.i } ∧ SameBytes s t)

/-- `Fx33` (R124) when its three bytes exist: the decimal digits at `I`, `I + 1`, `I + 2`, and no other change (the
whole-range check is the spec's decision D9; canonical memory as a premise is log entry 4). -/
def Obligations.BcdStoresThreeDigits : Prop :=
  ∀ (s : State) (x : Reg), s.memWf = true → s.i.toNat + 2 ≤ 0xFFF →
    ∃ t, exec (.ldB x) s = .next t ∧
      (t.readByte s.i.toNat).toNat = s.v[x].toNat / 100 ∧
      (t.readByte (s.i.toNat + 1)).toNat = s.v[x].toNat / 10 % 10 ∧
      (t.readByte (s.i.toNat + 2)).toNat = s.v[x].toNat % 10 ∧ OnlyBytes s.i.toNat 3 s t

/-- `Fx55` (R125) when its bytes exist: `V[0]` to `V[x]` from `I` upward, no other byte, and `I` unchanged (the
spec's decision D16; the whole-range check is D9; canonical memory as a premise is log entry 4). -/
def Obligations.StoreRegistersAscending : Prop :=
  ∀ (s : State) (x : Reg), s.memWf = true → s.i.toNat + x.val ≤ 0xFFF →
    ∃ t, exec (.storeRegs x) s = .next t ∧
      (∀ k : Reg, k ≤ x → t.readByte (s.i.toNat + k.val) = s.v[k]) ∧ OnlyBytes s.i.toNat (x.val + 1) s t

/-- `Fx65` (R126) when its bytes exist: `V[0]` to `V[x]` from `I` upward, no other register, and `I` unchanged (D16;
the whole-range check is D9). -/
def Obligations.LoadRegistersAscending : Prop :=
  ∀ (s : State) (x : Reg), s.i.toNat + x.val ≤ 0xFFF →
    ∃ t, exec (.loadRegs x) s = .next t ∧
      (∀ k : Reg, k ≤ x → t.v[k] = s.readByte (s.i.toNat + k.val)) ∧ OnlyRegs (· ≤ x) s t

/-- Storing `V0..Vx` and loading into any other register bank gives the values back, for every `x` (D0's example E6,
quoted in R126; that `I` stays is D16; canonical memory as a premise is log entry 4). -/
def Obligations.StoreThenLoadRoundTrip : Prop :=
  ∀ (s : State) (x : Reg) (bank : Vector Byte 16), s.memWf = true → s.i.toNat + x.val ≤ 0xFFF →
    ∃ t u, exec (.storeRegs x) s = .next t ∧ exec (.loadRegs x) { t with v := bank } = .next u ∧
      (∀ k : Reg, k ≤ x → u.v[k] = s.v[k]) ∧ (∀ k : Reg, ¬ k ≤ x → u.v[k] = bank[k])

/-- Instruction fetch sees a store into the two bytes that follow the storing instruction (R55, derived in the spec;
canonical memory as a premise is log entry 4). -/
def Obligations.FetchSeesTheStore : Prop :=
  ∀ (s : State) (x : Reg), s.memWf = true → s.i = s.pc → s.pc.toNat + x.val ≤ 0xFFF → 1 ≤ x.val →
    ∃ t, exec (.storeRegs x) s = .next t ∧ t.pc = s.pc ∧
      fetch t = .ok (wordOfBytes s.v[(0 : Reg)] s.v[(1 : Reg)])

/-! ## Display, keyboard, timers -/

/-- `00E0` (R142): one `clear()` command and nothing else. That the command is recorded in `out` is the model's choice,
log entry 3. -/
def Obligations.ClearSendsOneCommand : Prop :=
  ∀ s : State, ∃ t, exec .cls s = .next t ∧ t.out = s.out ++ [.clear] ∧ t = { s with out := t.out } ∧ SameBytes s t

/-- `Dxyn` (R143, R144) when its rows exist: the commands in row-major order, the collision flag, and no other
change. The answers are free (D22, log entry 5), the commands are recorded in `out` (log entry 3); untruncated
coordinates and the order are D13, `x = F` or `y = F` is D5. -/
def Obligations.DrawSendsTogglesAndSetsCollision : Prop :=
  ∀ (s : State) (x y : Reg) (n : BitVec 4), (n.toNat = 0 ∨ s.i.toNat + n.toNat - 1 ≤ 0xFFF) →
    ∃ t, exec (.drw x y n) s = .next t ∧
      t.out = s.out ++ drawCommands s x y n ∧
      t.v[flagReg] = (if true ∈ s.answers (drawCommands s x y n).length then 0x01 else 0x00) ∧
      OnlyRegs (· = flagReg) { s.afterAnswers (drawCommands s x y n).length with out := t.out } t

/-- A sprite of no rows, wherever `I` points, or of zero bytes sends nothing, asks nothing and sets `VF = 0` (R144
b, c; commands and answers are log entries 3 and 5). -/
def Obligations.EmptySpriteOnlyClearsFlag : Prop :=
  ∀ (s : State) (x y : Reg) (n : BitVec 4),
    (n.toNat = 0 ∨ (s.i.toNat + n.toNat ≤ 0x1000 ∧ ∀ r < n.toNat, s.readByte (s.i.toNat + r) = 0)) →
    ∃ t, exec (.drw x y n) s = .next t ∧ t.v[flagReg] = 0 ∧ OnlyRegs (· = flagReg) s t

/-- With the reference renderer of R178, of any size (the spec's decision D22), sending the same toggles twice
restores the screen, and if the first pass erased nothing the second erases every time (D0's example E8). -/
def Obligations.DrawingTwiceRestoresTheScreen : Prop :=
  ∀ (z : ScreenSize) (fb : Screen z) (ps : List (Coord × Coord)),
    let cmds := ps.map fun p => Output.toggle p.1 p.2
    let first := fb.run cmds
    let second := first.2.run cmds
    second.2 = fb ∧ first.1.length = ps.length ∧ ((∀ e ∈ first.1, e = false) → ∀ e ∈ second.1, e = true)

/-- `Ex9E` and `ExA1` (R145, R146): skip on the sampled bit of key `Vx`; a number above 15 sends no query and counts
as not held (R147, the spec's decision D11). The sample is free, log entry 5. -/
def Obligations.KeySkips : Prop :=
  ∀ (s : State) (x : Reg),
    (s.v[x].toNat ≤ 15 → ∃ keys u, KeysSeen s keys u ∧
      exec (.skp x) s = .next { u with pc := if keys.getLsbD s.v[x].toNat then s.pc + 2 else s.pc } ∧
      exec (.sknp x) s = .next { u with pc := if keys.getLsbD s.v[x].toNat then s.pc else s.pc + 2 }) ∧
    (15 < s.v[x].toNat →
      exec (.skp x) s = .next s ∧ exec (.sknp x) s = .next { s with pc := s.pc + 2 })

/-- `Fx0A` and the key press that completes it (R148, R149; the latch is the spec's decision D12): the instruction
only latches `x` and pauses, the next key press writes its code to `V[x]` and resumes, and a key press in a core
that does not wait changes nothing. -/
def Obligations.KeyWaitAndKeyPress : Prop :=
  ∀ (s : State) (x : Reg) (k : Key), ∃ t u,
    exec (.ldVxK x) s = .next t ∧ t = { s with paused := true, keyDest := x } ∧
    deliver (.keyPress k) t = .next u ∧ u.v[x].toNat = k.val ∧ u.paused = false ∧
    OnlyRegs (· = x) { t with paused := false } u ∧
    (s.paused = false → deliver (.keyPress k) s = .next s)

/-- R160, R161, R162: the timer moves; `tone_on` follows `ST`. -/
def Obligations.TimerMoves : Prop :=
  ∀ (s : State) (x : Reg),
    (∃ t, exec (.ldVxDT x) s = .next t ∧ t.v[x] = s.dt ∧ OnlyRegs (· = x) s t) ∧
    (∃ t, exec (.ldDTVx x) s = .next t ∧ t.dt = s.v[x] ∧ t = { s with dt := t.dt } ∧ SameBytes s t) ∧
    (∃ t, exec (.ldSTVx x) s = .next t ∧ t.st = s.v[x] ∧ t = { s with st := t.st } ∧ SameBytes s t ∧
      (t.toneOn = true ↔ 0 < s.v[x].toNat))

/-! ## Events -/

/-- `n` ticks in a row, in any state of the core (R214, R215; ticking while faulted is the spec's decision D18):
each timer goes down by one per tick and stays at 0, and nothing else changes. The due events are the model's
agenda, log entry 2. -/
def Obligations.TicksCountDownToZero : Prop :=
  ∀ (n : Nat) (s : State) (rest : List Event), s.agenda = List.replicate n .tick ++ rest →
    ∃ t, core.run n s = .next t ∧ t.dt.toNat = s.dt.toNat - n ∧ t.st.toNat = s.st.toNat - n ∧
      t = { s with dt := t.dt, st := t.st, agenda := rest }

/-- The `Reset` event from any state (R230, R185): every piece of the core at its reset value, whatever it held;
nothing is sent. The stack entries, `KEY_DEST` and the record are the spec's decisions D10, D12, D7; the font bytes
are the parameter `FONT`, whatever its value (R6, D23, log entry 1). That nothing is sent is D25; that `agenda` and
`out` stay is log entries 2 and 3. -/
def Obligations.ResetEventFromAnyState : Prop :=
  ∀ (s : State) (rest : List Event), s.agenda = .reset :: rest → ∃ t, step s = .next t ∧
    (∀ r : Reg, t.v[r] = 0) ∧ t.pc = 0x200 ∧ t.i = 0 ∧ t.sp.val = 0 ∧ (∀ k : Fin 16, t.stack[k] = 0) ∧ t.dt = 0 ∧
    t.st = 0 ∧ t.paused = false ∧ t.keyDest = 0 ∧ t.fault = ⟨false, .none, 0, 0, false, 0⟩ ∧ t.toneOn = false ∧
    (∀ (a : Nat) (h : a < 80), t.readByte a = s.font[a]) ∧ (∀ a, 80 ≤ a → t.readByte a = 0) ∧
    t.font = s.font ∧ t.out = s.out ∧ t.agenda = rest

/-- The `Load` event (R175; loading in mid-run is the spec's decision D19): the bytes go to 0x200 upward and nothing
else changes; more than 3584 bytes are refused, reported, and change nothing of the core (R205, D7). The due event
is the model's agenda, log entry 2, the report is log entry 3, and canonical memory as a premise is log entry 4. -/
def Obligations.LoadCopiesOrIsRefused : Prop :=
  ∀ (s : State) (bytes : List Byte) (rest : List Event), s.agenda = .load bytes :: rest → s.memWf = true →
    (bytes.length ≤ 3584 → ∃ t, step s = .next t ∧
      (∀ (k : Nat) (h : k < bytes.length), t.readByte (0x200 + k) = bytes[k]) ∧
      OnlyBytes 0x200 bytes.length { s with agenda := rest } t) ∧
    (3584 < bytes.length → step s = .next { s with agenda := rest, out := s.out ++ [.loadError] })

/-- The boot sequence (R233, derived in the spec): after a reset and the load of a program that starts with `i`, the
next step runs `i` at 0x200 (R240), from any earlier state; with nothing loaded it raises the decode fault of the
word 0. That the word 0 is illegal is the spec's decision D1 (log entry 12), and the record and `PC` that fault
leaves are D7 and D8 (R206, R207; log entries 8 and 20). The due events are the model's agenda, log entry 2. -/
def Obligations.BootRunsTheFirstInstruction : Prop :=
  (∀ (s : State) (i : Instr) (more : List Byte), more.length ≤ 3582 →
    s.agenda = [.reset, .load (encodeBytes i ++ more)] →
    ∃ t, core.run 2 s = .next t ∧ t.pc = 0x200 ∧ t.v = Vector.replicate 16 0 ∧
      step t = exec i { t with pc := 0x202 }) ∧
  (∀ s : State, s.agenda = [.reset] → ∃ t u, core.run 1 s = .next t ∧ step t = .next u ∧
    u = { t with pc := 0x202, fault := ⟨true, .decodeFault, 0x200, 0x0000, false, 0⟩ })
end

