-- ==== Sys2Proof/Laws/Decode.lean ====
section
/-! SUPPORT. The fields of R61 and the formats of R62 undo each other: each format's fields read back, and a word
is rebuilt from its fields. -/

namespace Sys2Proof

/-! ## The value of each form and field -/

theorem formNNN_toNat (t : BitVec 4) (nnn : BitVec 12) :
    (formNNN t nnn).toNat = t.toNat * 4096 + nnn.toNat := by
  have := nnn.isLt
  simp only [formNNN, BitVec.toNat_append]
  rw [← Nat.shiftLeft_add_eq_or_of_lt (by omega), Nat.shiftLeft_eq]

theorem formXKK_toNat (t : BitVec 4) (x : Reg) (kk : Byte) :
    (formXKK t x kk).toNat = t.toNat * 4096 + x.val * 256 + kk.toNat := by
  have := kk.isLt; have := x.isLt
  simp only [formXKK, BitVec.toNat_append, BitVec.toNat_ofFin]
  rw [← Nat.shiftLeft_add_eq_or_of_lt (by omega), Nat.shiftLeft_eq,
    ← Nat.shiftLeft_add_eq_or_of_lt (by omega), Nat.shiftLeft_eq]
  omega

theorem formXYN_toNat (t : BitVec 4) (x y : Reg) (n : BitVec 4) :
    (formXYN t x y n).toNat = t.toNat * 4096 + x.val * 256 + y.val * 16 + n.toNat := by
  have := n.isLt; have := x.isLt; have := y.isLt
  simp only [formXYN, BitVec.toNat_append, BitVec.toNat_ofFin]
  rw [← Nat.shiftLeft_add_eq_or_of_lt (by omega), Nat.shiftLeft_eq,
    ← Nat.shiftLeft_add_eq_or_of_lt (by omega), Nat.shiftLeft_eq,
    ← Nat.shiftLeft_add_eq_or_of_lt (by omega), Nat.shiftLeft_eq]
  omega

theorem fieldT_toNat (w : Word) : (fieldT w).toNat = w.toNat / 4096 := by
  have := w.isLt
  simp only [fieldT, BitVec.extractLsb'_toNat, Nat.shiftRight_eq_div_pow]; omega

theorem fieldX_val (w : Word) : (fieldX w).val = w.toNat / 256 % 16 := by
  show (w.extractLsb' 8 4).toNat = _
  simp only [BitVec.extractLsb'_toNat, Nat.shiftRight_eq_div_pow]

theorem fieldY_val (w : Word) : (fieldY w).val = w.toNat / 16 % 16 := by
  show (w.extractLsb' 4 4).toNat = _
  simp only [BitVec.extractLsb'_toNat, Nat.shiftRight_eq_div_pow]

theorem fieldN_toNat (w : Word) : (fieldN w).toNat = w.toNat % 16 := by
  simp only [fieldN, BitVec.extractLsb'_toNat, Nat.shiftRight_eq_div_pow]; omega

theorem fieldKK_toNat (w : Word) : (fieldKK w).toNat = w.toNat % 256 := by
  simp only [fieldKK, BitVec.extractLsb'_toNat, Nat.shiftRight_eq_div_pow]; omega

theorem fieldNNN_toNat (w : Word) : (fieldNNN w).toNat = w.toNat % 4096 := by
  simp only [fieldNNN, BitVec.extractLsb'_toNat, Nat.shiftRight_eq_div_pow]; omega

/-! ## Fields of a form -/

section
variable (t n : BitVec 4) (nnn : BitVec 12) (x y : Reg) (kk : Byte)

@[simp] theorem fieldT_formNNN : fieldT (formNNN t nnn) = t := by
  have := nnn.isLt
  apply BitVec.eq_of_toNat_eq; rw [fieldT_toNat, formNNN_toNat]; omega

@[simp] theorem fieldNNN_formNNN : fieldNNN (formNNN t nnn) = nnn := by
  have := nnn.isLt
  apply BitVec.eq_of_toNat_eq; rw [fieldNNN_toNat, formNNN_toNat]; omega

@[simp] theorem fieldT_formXKK : fieldT (formXKK t x kk) = t := by
  have := kk.isLt; have := x.isLt
  apply BitVec.eq_of_toNat_eq; rw [fieldT_toNat, formXKK_toNat]; omega

@[simp] theorem fieldX_formXKK : fieldX (formXKK t x kk) = x := by
  have := kk.isLt; have := x.isLt
  apply Fin.ext; rw [fieldX_val, formXKK_toNat]; omega

@[simp] theorem fieldKK_formXKK : fieldKK (formXKK t x kk) = kk := by
  have := kk.isLt
  apply BitVec.eq_of_toNat_eq; rw [fieldKK_toNat, formXKK_toNat]; omega

@[simp] theorem fieldT_formXYN : fieldT (formXYN t x y n) = t := by
  have := n.isLt; have := x.isLt; have := y.isLt
  apply BitVec.eq_of_toNat_eq; rw [fieldT_toNat, formXYN_toNat]; omega

@[simp] theorem fieldX_formXYN : fieldX (formXYN t x y n) = x := by
  have := n.isLt; have := x.isLt; have := y.isLt
  apply Fin.ext; rw [fieldX_val, formXYN_toNat]; omega

@[simp] theorem fieldY_formXYN : fieldY (formXYN t x y n) = y := by
  have := n.isLt; have := y.isLt
  apply Fin.ext; rw [fieldY_val, formXYN_toNat]; omega

@[simp] theorem fieldN_formXYN : fieldN (formXYN t x y n) = n := by
  have := n.isLt
  apply BitVec.eq_of_toNat_eq; rw [fieldN_toNat, formXYN_toNat]; omega

end

/-! ## A word from its fields -/

theorem formNNN_fields (w : Word) : formNNN (fieldT w) (fieldNNN w) = w := by
  apply BitVec.eq_of_toNat_eq; rw [formNNN_toNat, fieldT_toNat, fieldNNN_toNat]; omega

theorem formXKK_fields (w : Word) : formXKK (fieldT w) (fieldX w) (fieldKK w) = w := by
  apply BitVec.eq_of_toNat_eq; rw [formXKK_toNat, fieldT_toNat, fieldX_val, fieldKK_toNat]; omega

theorem formXYN_fields (w : Word) : formXYN (fieldT w) (fieldX w) (fieldY w) (fieldN w) = w := by
  apply BitVec.eq_of_toNat_eq
  rw [formXYN_toNat, fieldT_toNat, fieldX_val, fieldY_val, fieldN_toNat]; omega

/-- A word is rebuilt from its two bytes in memory order. -/
theorem wordOfBytes_bytes (w : Word) : wordOfBytes (w.extractLsb' 8 8) (w.extractLsb' 0 8) = w := by
  apply BitVec.eq_of_toNat_eq
  have := w.isLt
  simp only [wordOfBytes, BitVec.toNat_append, BitVec.extractLsb'_toNat, Nat.shiftRight_eq_div_pow]
  rw [← Nat.shiftLeft_add_eq_or_of_lt (by omega), Nat.shiftLeft_eq]
  omega

/-! ## The three masks of R66, by value -/

/-- A mask that keeps the top nibble and the low `k` bits keeps their value. -/
theorem and_maskLow (w : Word) (k : Nat) (hk : k ≤ 12) :
    (w &&& (0xF000#16 ||| BitVec.ofNat 16 (2 ^ k - 1))).toNat = w.toNat / 4096 * 4096 + w.toNat % 2 ^ k := by
  have h2 : 2 ^ k ≤ 4096 := Nat.pow_le_pow_right (n := 2) (by decide) hk
  have hp : 0 < 2 ^ k := Nat.two_pow_pos k
  have hw := w.isLt
  have e : (0xF000#16 : Word).toNat = 15 <<< 12 := by decide
  rw [BitVec.toNat_and, BitVec.toNat_or, Nat.and_or_distrib_left, e, BitVec.toNat_ofNat,
    Nat.mod_eq_of_lt (by omega : 2 ^ k - 1 < 2 ^ 16), Nat.and_two_pow_sub_one_eq_mod]
  have : w.toNat &&& 15 <<< 12 = (w.toNat / 4096) <<< 12 := by
    apply Nat.eq_of_testBit_eq; intro j
    simp only [Nat.testBit_and, Nat.testBit_shiftLeft]
    by_cases hj : 12 ≤ j
    · have : w.toNat / 4096 = w.toNat >>> 12 := by rw [Nat.shiftRight_eq_div_pow]
      simp only [hj, decide_true, Bool.true_and, this, Nat.testBit_shiftRight]
      rw [show 12 + (j - 12) = j by omega]
      by_cases h4 : j < 16
      · have : Nat.testBit 15 (j - 12) = true := by
          have : j - 12 = 0 ∨ j - 12 = 1 ∨ j - 12 = 2 ∨ j - 12 = 3 := by omega
          rcases this with h | h | h | h <;> rw [h] <;> decide
        simp [this]
      · rw [Nat.testBit_lt_two_pow (Nat.lt_of_lt_of_le hw (Nat.pow_le_pow_right (by decide) (by omega)))]; rfl
    · simp [hj]
  have hmod := Nat.mod_lt w.toNat hp
  rw [this, ← Nat.shiftLeft_add_eq_or_of_lt (by omega), Nat.shiftLeft_eq]

theorem and_F000 (w : Word) : (w &&& 0xF000#16).toNat = w.toNat / 4096 * 4096 := by
  have := and_maskLow w 0 (by decide)
  simpa [Nat.mod_one] using this

theorem and_F00F (w : Word) : (w &&& 0xF00F#16).toNat = w.toNat / 4096 * 4096 + w.toNat % 16 := by
  exact and_maskLow w 4 (by decide)

theorem and_F0FF (w : Word) : (w &&& 0xF0FF#16).toNat = w.toNat / 4096 * 4096 + w.toNat % 256 := and_maskLow w 8 (by decide)

theorem and_FFFF (w : Word) : w &&& 0xFFFF#16 = w := BitVec.and_allOnes (x := w)

end Sys2Proof
end

