-- ==== Sys2Proof/Laws/Memory.lean ====
section
/-! SUPPORT. The laws of memory (spec/20_memory.md R44, R46, R52): every operation keeps the canonical form, a
read after a write gives the value written, and a write leaves every other byte alone. -/

namespace Sys2Proof.Machine.Memory

variable {f : Font}

/-- In a memory whose entries all lie above `a`, `a` is unlisted. -/
theorem read_of_wfAbove {m : Memory} : ∀ {l a : Nat}, wfAbove f (some l) m = true → a ≤ l → read f m a = resetByte f a := by
  induction m with
  | nil => intros; rfl
  | cons p m ih =>
    obtain ⟨b, w⟩ := p
    intro l a h hal
    simp only [wfAbove, Bool.and_eq_true, decide_eq_true_eq] at h
    obtain ⟨⟨⟨hlb, -⟩, -⟩, hm⟩ := h
    rw [read, if_neg (by omega)]
    exact ih hm (by omega)

/-- A weaker bound keeps the form. -/
theorem wfAbove_mono {m : Memory} {l l' : Nat} (h : wfAbove f (some l) m = true) (hl : l' ≤ l) :
    wfAbove f (some l') m = true := by
  cases m with
  | nil => rfl
  | cons p m =>
    simp only [wfAbove, Bool.and_eq_true, decide_eq_true_eq] at h ⊢
    exact ⟨⟨⟨by omega, h.1.1.2⟩, h.1.2⟩, h.2⟩

/-- No bound is the weakest bound. -/
theorem wfAbove_none {m : Memory} {l : Nat} (h : wfAbove f (some l) m = true) : wfAbove f none m = true := by
  cases m with
  | nil => rfl
  | cons p m =>
    simp only [wfAbove, Bool.and_eq_true, decide_eq_true_eq] at h ⊢
    exact ⟨⟨⟨trivial, h.1.1.2⟩, h.1.2⟩, h.2⟩

/-- The bound `lo`, if there is one, is below `a`. -/
def Above (lo : Option Nat) (a : Nat) : Prop := ∀ l, lo = some l → l < a

theorem wfAbove_cons {lo : Option Nat} {b : Nat} {w : Byte} {m : Memory} :
    wfAbove f lo ((b, w) :: m) = true ↔
      Above lo b ∧ b < 4096 ∧ w ≠ resetByte f b ∧ wfAbove f (some b) m = true := by
  cases lo <;> simp [wfAbove, Above, and_assoc]

/-- A form whose bound is below `b` also holds above `b` when all its entries do. -/
theorem wfAbove_of_above {lo : Option Nat} {b : Nat} {m : Memory} (h : wfAbove f (some b) m = true)
    (hb : Above lo b) : wfAbove f lo m = true := by
  cases lo with
  | none => exact wfAbove_none h
  | some l => exact wfAbove_mono h (Nat.le_of_lt (hb l rfl))

theorem write_wfAbove {m : Memory} : ∀ {lo : Option Nat} {a : Nat} (x : Byte),
    wfAbove f lo m = true → Above lo a → a < 4096 → wfAbove f lo (write f m a x) = true := by
  induction m with
  | nil =>
    intro lo a x _ hlo ha
    by_cases hx : x = resetByte f a
    · simp [write, hx, wfAbove]
    · simp only [write, if_neg hx]
      exact wfAbove_cons.2 ⟨hlo, ha, hx, rfl⟩
  | cons p m ih =>
    obtain ⟨b, w⟩ := p
    intro lo a x h hlo ha
    obtain ⟨hb, hb4, hw, hm⟩ := wfAbove_cons.1 h
    simp only [write]
    split
    · rename_i hab
      split
      · exact h
      · rename_i hx
        exact wfAbove_cons.2 ⟨hlo, ha, hx, wfAbove_cons.2 ⟨fun l e => by cases e; exact hab, hb4, hw, hm⟩⟩
    · split
      · rename_i hab
        subst hab
        split
        · exact wfAbove_of_above hm hb
        · rename_i hx
          exact wfAbove_cons.2 ⟨hb, ha, hx, hm⟩
      · exact wfAbove_cons.2 ⟨hb, hb4, hw, ih x hm (fun l e => by cases e; omega) ha⟩

/-- A write keeps the canonical form. -/
theorem write_wf {m : Memory} {a : Nat} (x : Byte) (h : wf f m = true) (ha : a < 4096) :
    wf f (write f m a x) = true :=
  write_wfAbove x h (fun _ e => by cases e) ha

/-- Consecutive writes inside memory keep the canonical form. -/
theorem writeBytes_wf (xs : List Byte) : ∀ {m : Memory} {a : Nat}, wf f m = true → a + xs.length ≤ 4096 →
    wf f (writeBytes f m a xs) = true := by
  induction xs with
  | nil => intro m a h _; exact h
  | cons x xs ih =>
    intro m a h ha
    simp only [List.length_cons] at ha
    exact ih (write_wf x h (by omega)) (by omega)

/-- The empty list, reset's memory, is canonical. -/
@[simp] theorem wf_nil : wf f [] = true := rfl

theorem read_write_same_above {m : Memory} : ∀ {lo : Option Nat} {a : Nat} (x : Byte),
    wfAbove f lo m = true → read f (write f m a x) a = x := by
  induction m with
  | nil =>
    intro lo a x _
    by_cases hx : x = resetByte f a
    · simp [write, hx, read]
    · simp [write, hx, read]
  | cons p m ih =>
    obtain ⟨b, w⟩ := p
    intro lo a x h
    obtain ⟨-, -, -, hm⟩ := wfAbove_cons.1 h
    simp only [write]
    split
    · rename_i hab
      split
      · rename_i hx
        rw [read, if_neg (by omega), read_of_wfAbove hm (by omega), hx]
      · simp [read]
    · split
      · rename_i hab
        subst hab
        split
        · rename_i hx
          rw [read_of_wfAbove hm (Nat.le_refl a), hx]
        · simp [read]
      · rename_i hab
        rw [read, if_neg hab]
        exact ih x hm

/-- R52 (a): a read returns the value of the latest write to that byte. -/
theorem read_write_same {m : Memory} {a : Nat} (x : Byte) (h : wf f m = true) : read f (write f m a x) a = x :=
  read_write_same_above x h

/-- A write leaves every other byte alone. -/
theorem read_write_other (m : Memory) {a c : Nat} (x : Byte) (h : c ≠ a) : read f (write f m a x) c = read f m c := by
  induction m with
  | nil =>
    by_cases hx : x = resetByte f a
    · simp [write, hx]
    · simp [write, hx, read, h]
  | cons p m ih =>
    obtain ⟨b, w⟩ := p
    simp only [write]
    split
    · split
      · rfl
      · rw [read, if_neg h]
    · split
      · rename_i hab
        subst hab
        split
        · rw [read, if_neg h]
        · rw [read, if_neg h, read, if_neg h]
      · rw [read, read, ih]

/-- Consecutive writes leave every byte outside them alone. -/
theorem read_writeBytes_other (xs : List Byte) : ∀ (m : Memory) (a c : Nat), ¬ (a ≤ c ∧ c < a + xs.length) →
    read f (writeBytes f m a xs) c = read f m c := by
  induction xs with
  | nil => intros; rfl
  | cons x xs ih =>
    intro m a c h
    simp only [List.length_cons] at h
    rw [writeBytes, ih _ _ _ (by omega), read_write_other m x (by omega)]

/-- Consecutive writes put their `k`-th value at the `k`-th byte. -/
theorem read_writeBytes_at (xs : List Byte) : ∀ {m : Memory} {a : Nat} (k : Nat) (hk : k < xs.length),
    wf f m = true → a + xs.length ≤ 4096 → read f (writeBytes f m a xs) (a + k) = xs[k] := by
  induction xs with
  | nil => intro m a k hk; exact absurd hk (Nat.not_lt_zero k)
  | cons x xs ih =>
    intro m a k hk h ha
    simp only [List.length_cons] at ha hk
    rw [writeBytes]
    cases k with
    | zero =>
      rw [read_writeBytes_other xs _ _ _ (by omega)]
      simpa using read_write_same x h
    | succ k =>
      have := ih (m := write f m a x) (a := a + 1) k (by omega) (write_wf x h (by omega)) (by omega)
      rw [show a + (k + 1) = a + 1 + k by omega, this]
      rfl

end Sys2Proof.Machine.Memory
end

