-- ==== Sys2Proof/Laws/State.lean ====
section
/-! SUPPORT. One lemma per field of `State` and per named update of Machine/Ops.lean and Machine/Flags.lean, so
that no proof unfolds a record update. -/

namespace Sys2Proof.Machine.State

variable (s : State)

/-! ### setV -/

@[simp] theorem setV_v (r : Reg) (x : Byte) : (s.setV r x).v = s.v.set r x := rfl
@[simp] theorem setV_pc (r : Reg) (x : Byte) : (s.setV r x).pc = s.pc := rfl
@[simp] theorem setV_i (r : Reg) (x : Byte) : (s.setV r x).i = s.i := rfl
@[simp] theorem setV_sp (r : Reg) (x : Byte) : (s.setV r x).sp = s.sp := rfl
@[simp] theorem setV_stack (r : Reg) (x : Byte) : (s.setV r x).stack = s.stack := rfl
@[simp] theorem setV_dt (r : Reg) (x : Byte) : (s.setV r x).dt = s.dt := rfl
@[simp] theorem setV_st (r : Reg) (x : Byte) : (s.setV r x).st = s.st := rfl
@[simp] theorem setV_paused (r : Reg) (x : Byte) : (s.setV r x).paused = s.paused := rfl
@[simp] theorem setV_keyDest (r : Reg) (x : Byte) : (s.setV r x).keyDest = s.keyDest := rfl
@[simp] theorem setV_fault (r : Reg) (x : Byte) : (s.setV r x).fault = s.fault := rfl
@[simp] theorem setV_mem (r : Reg) (x : Byte) : (s.setV r x).mem = s.mem := rfl
@[simp] theorem setV_font (r : Reg) (x : Byte) : (s.setV r x).font = s.font := rfl
@[simp] theorem setV_readByte (r : Reg) (x : Byte) : (s.setV r x).readByte = s.readByte := rfl
@[simp] theorem setV_agenda (r : Reg) (x : Byte) : (s.setV r x).agenda = s.agenda := rfl
@[simp] theorem setV_rndIn (r : Reg) (x : Byte) : (s.setV r x).rndIn = s.rndIn := rfl
@[simp] theorem setV_keyIn (r : Reg) (x : Byte) : (s.setV r x).keyIn = s.keyIn := rfl
@[simp] theorem setV_erasedIn (r : Reg) (x : Byte) : (s.setV r x).erasedIn = s.erasedIn := rfl
@[simp] theorem setV_draws (r : Reg) (x : Byte) : (s.setV r x).draws = s.draws := rfl
@[simp] theorem setV_out (r : Reg) (x : Byte) : (s.setV r x).out = s.out := rfl

/-! ### setPc -/

@[simp] theorem setPc_v (x : Word) : (s.setPc x).v = s.v := rfl
@[simp] theorem setPc_pc (x : Word) : (s.setPc x).pc = x := rfl
@[simp] theorem setPc_i (x : Word) : (s.setPc x).i = s.i := rfl
@[simp] theorem setPc_sp (x : Word) : (s.setPc x).sp = s.sp := rfl
@[simp] theorem setPc_stack (x : Word) : (s.setPc x).stack = s.stack := rfl
@[simp] theorem setPc_dt (x : Word) : (s.setPc x).dt = s.dt := rfl
@[simp] theorem setPc_st (x : Word) : (s.setPc x).st = s.st := rfl
@[simp] theorem setPc_paused (x : Word) : (s.setPc x).paused = s.paused := rfl
@[simp] theorem setPc_keyDest (x : Word) : (s.setPc x).keyDest = s.keyDest := rfl
@[simp] theorem setPc_fault (x : Word) : (s.setPc x).fault = s.fault := rfl
@[simp] theorem setPc_mem (x : Word) : (s.setPc x).mem = s.mem := rfl
@[simp] theorem setPc_font (x : Word) : (s.setPc x).font = s.font := rfl
@[simp] theorem setPc_readByte (x : Word) : (s.setPc x).readByte = s.readByte := rfl
@[simp] theorem setPc_agenda (x : Word) : (s.setPc x).agenda = s.agenda := rfl
@[simp] theorem setPc_rndIn (x : Word) : (s.setPc x).rndIn = s.rndIn := rfl
@[simp] theorem setPc_keyIn (x : Word) : (s.setPc x).keyIn = s.keyIn := rfl
@[simp] theorem setPc_erasedIn (x : Word) : (s.setPc x).erasedIn = s.erasedIn := rfl
@[simp] theorem setPc_draws (x : Word) : (s.setPc x).draws = s.draws := rfl
@[simp] theorem setPc_out (x : Word) : (s.setPc x).out = s.out := rfl

/-! ### setI -/

@[simp] theorem setI_v (x : Word) : (s.setI x).v = s.v := rfl
@[simp] theorem setI_pc (x : Word) : (s.setI x).pc = s.pc := rfl
@[simp] theorem setI_i (x : Word) : (s.setI x).i = x := rfl
@[simp] theorem setI_sp (x : Word) : (s.setI x).sp = s.sp := rfl
@[simp] theorem setI_stack (x : Word) : (s.setI x).stack = s.stack := rfl
@[simp] theorem setI_dt (x : Word) : (s.setI x).dt = s.dt := rfl
@[simp] theorem setI_st (x : Word) : (s.setI x).st = s.st := rfl
@[simp] theorem setI_paused (x : Word) : (s.setI x).paused = s.paused := rfl
@[simp] theorem setI_keyDest (x : Word) : (s.setI x).keyDest = s.keyDest := rfl
@[simp] theorem setI_fault (x : Word) : (s.setI x).fault = s.fault := rfl
@[simp] theorem setI_mem (x : Word) : (s.setI x).mem = s.mem := rfl
@[simp] theorem setI_font (x : Word) : (s.setI x).font = s.font := rfl
@[simp] theorem setI_readByte (x : Word) : (s.setI x).readByte = s.readByte := rfl
@[simp] theorem setI_agenda (x : Word) : (s.setI x).agenda = s.agenda := rfl
@[simp] theorem setI_rndIn (x : Word) : (s.setI x).rndIn = s.rndIn := rfl
@[simp] theorem setI_keyIn (x : Word) : (s.setI x).keyIn = s.keyIn := rfl
@[simp] theorem setI_erasedIn (x : Word) : (s.setI x).erasedIn = s.erasedIn := rfl
@[simp] theorem setI_draws (x : Word) : (s.setI x).draws = s.draws := rfl
@[simp] theorem setI_out (x : Word) : (s.setI x).out = s.out := rfl

/-! ### setDt -/

@[simp] theorem setDt_v (x : Byte) : (s.setDt x).v = s.v := rfl
@[simp] theorem setDt_pc (x : Byte) : (s.setDt x).pc = s.pc := rfl
@[simp] theorem setDt_i (x : Byte) : (s.setDt x).i = s.i := rfl
@[simp] theorem setDt_sp (x : Byte) : (s.setDt x).sp = s.sp := rfl
@[simp] theorem setDt_stack (x : Byte) : (s.setDt x).stack = s.stack := rfl
@[simp] theorem setDt_dt (x : Byte) : (s.setDt x).dt = x := rfl
@[simp] theorem setDt_st (x : Byte) : (s.setDt x).st = s.st := rfl
@[simp] theorem setDt_paused (x : Byte) : (s.setDt x).paused = s.paused := rfl
@[simp] theorem setDt_keyDest (x : Byte) : (s.setDt x).keyDest = s.keyDest := rfl
@[simp] theorem setDt_fault (x : Byte) : (s.setDt x).fault = s.fault := rfl
@[simp] theorem setDt_mem (x : Byte) : (s.setDt x).mem = s.mem := rfl
@[simp] theorem setDt_font (x : Byte) : (s.setDt x).font = s.font := rfl
@[simp] theorem setDt_readByte (x : Byte) : (s.setDt x).readByte = s.readByte := rfl
@[simp] theorem setDt_agenda (x : Byte) : (s.setDt x).agenda = s.agenda := rfl
@[simp] theorem setDt_rndIn (x : Byte) : (s.setDt x).rndIn = s.rndIn := rfl
@[simp] theorem setDt_keyIn (x : Byte) : (s.setDt x).keyIn = s.keyIn := rfl
@[simp] theorem setDt_erasedIn (x : Byte) : (s.setDt x).erasedIn = s.erasedIn := rfl
@[simp] theorem setDt_draws (x : Byte) : (s.setDt x).draws = s.draws := rfl
@[simp] theorem setDt_out (x : Byte) : (s.setDt x).out = s.out := rfl

/-! ### setSt -/

@[simp] theorem setSt_v (x : Byte) : (s.setSt x).v = s.v := rfl
@[simp] theorem setSt_pc (x : Byte) : (s.setSt x).pc = s.pc := rfl
@[simp] theorem setSt_i (x : Byte) : (s.setSt x).i = s.i := rfl
@[simp] theorem setSt_sp (x : Byte) : (s.setSt x).sp = s.sp := rfl
@[simp] theorem setSt_stack (x : Byte) : (s.setSt x).stack = s.stack := rfl
@[simp] theorem setSt_dt (x : Byte) : (s.setSt x).dt = s.dt := rfl
@[simp] theorem setSt_st (x : Byte) : (s.setSt x).st = x := rfl
@[simp] theorem setSt_paused (x : Byte) : (s.setSt x).paused = s.paused := rfl
@[simp] theorem setSt_keyDest (x : Byte) : (s.setSt x).keyDest = s.keyDest := rfl
@[simp] theorem setSt_fault (x : Byte) : (s.setSt x).fault = s.fault := rfl
@[simp] theorem setSt_mem (x : Byte) : (s.setSt x).mem = s.mem := rfl
@[simp] theorem setSt_font (x : Byte) : (s.setSt x).font = s.font := rfl
@[simp] theorem setSt_readByte (x : Byte) : (s.setSt x).readByte = s.readByte := rfl
@[simp] theorem setSt_agenda (x : Byte) : (s.setSt x).agenda = s.agenda := rfl
@[simp] theorem setSt_rndIn (x : Byte) : (s.setSt x).rndIn = s.rndIn := rfl
@[simp] theorem setSt_keyIn (x : Byte) : (s.setSt x).keyIn = s.keyIn := rfl
@[simp] theorem setSt_erasedIn (x : Byte) : (s.setSt x).erasedIn = s.erasedIn := rfl
@[simp] theorem setSt_draws (x : Byte) : (s.setSt x).draws = s.draws := rfl
@[simp] theorem setSt_out (x : Byte) : (s.setSt x).out = s.out := rfl

/-! ### storeBytes -/

@[simp] theorem storeBytes_v (a : Nat) (xs : List Byte) : (s.storeBytes a xs).v = s.v := rfl
@[simp] theorem storeBytes_pc (a : Nat) (xs : List Byte) : (s.storeBytes a xs).pc = s.pc := rfl
@[simp] theorem storeBytes_i (a : Nat) (xs : List Byte) : (s.storeBytes a xs).i = s.i := rfl
@[simp] theorem storeBytes_sp (a : Nat) (xs : List Byte) : (s.storeBytes a xs).sp = s.sp := rfl
@[simp] theorem storeBytes_stack (a : Nat) (xs : List Byte) : (s.storeBytes a xs).stack = s.stack := rfl
@[simp] theorem storeBytes_dt (a : Nat) (xs : List Byte) : (s.storeBytes a xs).dt = s.dt := rfl
@[simp] theorem storeBytes_st (a : Nat) (xs : List Byte) : (s.storeBytes a xs).st = s.st := rfl
@[simp] theorem storeBytes_paused (a : Nat) (xs : List Byte) : (s.storeBytes a xs).paused = s.paused := rfl
@[simp] theorem storeBytes_keyDest (a : Nat) (xs : List Byte) : (s.storeBytes a xs).keyDest = s.keyDest := rfl
@[simp] theorem storeBytes_fault (a : Nat) (xs : List Byte) : (s.storeBytes a xs).fault = s.fault := rfl
@[simp] theorem storeBytes_mem (a : Nat) (xs : List Byte) : (s.storeBytes a xs).mem = Memory.writeBytes s.font s.mem a xs := rfl
@[simp] theorem storeBytes_font (a : Nat) (xs : List Byte) : (s.storeBytes a xs).font = s.font := rfl
@[simp] theorem storeBytes_agenda (a : Nat) (xs : List Byte) : (s.storeBytes a xs).agenda = s.agenda := rfl
@[simp] theorem storeBytes_rndIn (a : Nat) (xs : List Byte) : (s.storeBytes a xs).rndIn = s.rndIn := rfl
@[simp] theorem storeBytes_keyIn (a : Nat) (xs : List Byte) : (s.storeBytes a xs).keyIn = s.keyIn := rfl
@[simp] theorem storeBytes_erasedIn (a : Nat) (xs : List Byte) : (s.storeBytes a xs).erasedIn = s.erasedIn := rfl
@[simp] theorem storeBytes_draws (a : Nat) (xs : List Byte) : (s.storeBytes a xs).draws = s.draws := rfl
@[simp] theorem storeBytes_out (a : Nat) (xs : List Byte) : (s.storeBytes a xs).out = s.out := rfl

/-! ### pauseFor -/

@[simp] theorem pauseFor_v (r : Reg) : (s.pauseFor r).v = s.v := rfl
@[simp] theorem pauseFor_pc (r : Reg) : (s.pauseFor r).pc = s.pc := rfl
@[simp] theorem pauseFor_i (r : Reg) : (s.pauseFor r).i = s.i := rfl
@[simp] theorem pauseFor_sp (r : Reg) : (s.pauseFor r).sp = s.sp := rfl
@[simp] theorem pauseFor_stack (r : Reg) : (s.pauseFor r).stack = s.stack := rfl
@[simp] theorem pauseFor_dt (r : Reg) : (s.pauseFor r).dt = s.dt := rfl
@[simp] theorem pauseFor_st (r : Reg) : (s.pauseFor r).st = s.st := rfl
@[simp] theorem pauseFor_paused (r : Reg) : (s.pauseFor r).paused = true := rfl
@[simp] theorem pauseFor_keyDest (r : Reg) : (s.pauseFor r).keyDest = r := rfl
@[simp] theorem pauseFor_fault (r : Reg) : (s.pauseFor r).fault = s.fault := rfl
@[simp] theorem pauseFor_mem (r : Reg) : (s.pauseFor r).mem = s.mem := rfl
@[simp] theorem pauseFor_font (r : Reg) : (s.pauseFor r).font = s.font := rfl
@[simp] theorem pauseFor_readByte (r : Reg) : (s.pauseFor r).readByte = s.readByte := rfl
@[simp] theorem pauseFor_agenda (r : Reg) : (s.pauseFor r).agenda = s.agenda := rfl
@[simp] theorem pauseFor_rndIn (r : Reg) : (s.pauseFor r).rndIn = s.rndIn := rfl
@[simp] theorem pauseFor_keyIn (r : Reg) : (s.pauseFor r).keyIn = s.keyIn := rfl
@[simp] theorem pauseFor_erasedIn (r : Reg) : (s.pauseFor r).erasedIn = s.erasedIn := rfl
@[simp] theorem pauseFor_draws (r : Reg) : (s.pauseFor r).draws = s.draws := rfl
@[simp] theorem pauseFor_out (r : Reg) : (s.pauseFor r).out = s.out := rfl

/-! ### resume -/

@[simp] theorem resume_v : s.resume.v = s.v := rfl
@[simp] theorem resume_pc : s.resume.pc = s.pc := rfl
@[simp] theorem resume_i : s.resume.i = s.i := rfl
@[simp] theorem resume_sp : s.resume.sp = s.sp := rfl
@[simp] theorem resume_stack : s.resume.stack = s.stack := rfl
@[simp] theorem resume_dt : s.resume.dt = s.dt := rfl
@[simp] theorem resume_st : s.resume.st = s.st := rfl
@[simp] theorem resume_paused : s.resume.paused = false := rfl
@[simp] theorem resume_keyDest : s.resume.keyDest = s.keyDest := rfl
@[simp] theorem resume_fault : s.resume.fault = s.fault := rfl
@[simp] theorem resume_mem : s.resume.mem = s.mem := rfl
@[simp] theorem resume_font : s.resume.font = s.font := rfl
@[simp] theorem resume_readByte : s.resume.readByte = s.readByte := rfl
@[simp] theorem resume_agenda : s.resume.agenda = s.agenda := rfl
@[simp] theorem resume_rndIn : s.resume.rndIn = s.rndIn := rfl
@[simp] theorem resume_keyIn : s.resume.keyIn = s.keyIn := rfl
@[simp] theorem resume_erasedIn : s.resume.erasedIn = s.erasedIn := rfl
@[simp] theorem resume_draws : s.resume.draws = s.draws := rfl
@[simp] theorem resume_out : s.resume.out = s.out := rfl

/-! ### emit -/

@[simp] theorem emit_v (o : Output) : (s.emit o).v = s.v := rfl
@[simp] theorem emit_pc (o : Output) : (s.emit o).pc = s.pc := rfl
@[simp] theorem emit_i (o : Output) : (s.emit o).i = s.i := rfl
@[simp] theorem emit_sp (o : Output) : (s.emit o).sp = s.sp := rfl
@[simp] theorem emit_stack (o : Output) : (s.emit o).stack = s.stack := rfl
@[simp] theorem emit_dt (o : Output) : (s.emit o).dt = s.dt := rfl
@[simp] theorem emit_st (o : Output) : (s.emit o).st = s.st := rfl
@[simp] theorem emit_paused (o : Output) : (s.emit o).paused = s.paused := rfl
@[simp] theorem emit_keyDest (o : Output) : (s.emit o).keyDest = s.keyDest := rfl
@[simp] theorem emit_fault (o : Output) : (s.emit o).fault = s.fault := rfl
@[simp] theorem emit_mem (o : Output) : (s.emit o).mem = s.mem := rfl
@[simp] theorem emit_font (o : Output) : (s.emit o).font = s.font := rfl
@[simp] theorem emit_readByte (o : Output) : (s.emit o).readByte = s.readByte := rfl
@[simp] theorem emit_agenda (o : Output) : (s.emit o).agenda = s.agenda := rfl
@[simp] theorem emit_rndIn (o : Output) : (s.emit o).rndIn = s.rndIn := rfl
@[simp] theorem emit_keyIn (o : Output) : (s.emit o).keyIn = s.keyIn := rfl
@[simp] theorem emit_erasedIn (o : Output) : (s.emit o).erasedIn = s.erasedIn := rfl
@[simp] theorem emit_draws (o : Output) : (s.emit o).draws = s.draws := rfl
@[simp] theorem emit_out (o : Output) : (s.emit o).out = s.out ++ [o] := rfl

/-! ### loadV -/

@[simp] theorem loadV_pc (x : Reg) (b : Nat) : (s.loadV x b).pc = s.pc := rfl
@[simp] theorem loadV_i (x : Reg) (b : Nat) : (s.loadV x b).i = s.i := rfl
@[simp] theorem loadV_sp (x : Reg) (b : Nat) : (s.loadV x b).sp = s.sp := rfl
@[simp] theorem loadV_stack (x : Reg) (b : Nat) : (s.loadV x b).stack = s.stack := rfl
@[simp] theorem loadV_dt (x : Reg) (b : Nat) : (s.loadV x b).dt = s.dt := rfl
@[simp] theorem loadV_st (x : Reg) (b : Nat) : (s.loadV x b).st = s.st := rfl
@[simp] theorem loadV_paused (x : Reg) (b : Nat) : (s.loadV x b).paused = s.paused := rfl
@[simp] theorem loadV_keyDest (x : Reg) (b : Nat) : (s.loadV x b).keyDest = s.keyDest := rfl
@[simp] theorem loadV_fault (x : Reg) (b : Nat) : (s.loadV x b).fault = s.fault := rfl
@[simp] theorem loadV_mem (x : Reg) (b : Nat) : (s.loadV x b).mem = s.mem := rfl
@[simp] theorem loadV_font (x : Reg) (b : Nat) : (s.loadV x b).font = s.font := rfl
@[simp] theorem loadV_readByte (x : Reg) (b : Nat) : (s.loadV x b).readByte = s.readByte := rfl
@[simp] theorem loadV_agenda (x : Reg) (b : Nat) : (s.loadV x b).agenda = s.agenda := rfl
@[simp] theorem loadV_rndIn (x : Reg) (b : Nat) : (s.loadV x b).rndIn = s.rndIn := rfl
@[simp] theorem loadV_keyIn (x : Reg) (b : Nat) : (s.loadV x b).keyIn = s.keyIn := rfl
@[simp] theorem loadV_erasedIn (x : Reg) (b : Nat) : (s.loadV x b).erasedIn = s.erasedIn := rfl
@[simp] theorem loadV_draws (x : Reg) (b : Nat) : (s.loadV x b).draws = s.draws := rfl
@[simp] theorem loadV_out (x : Reg) (b : Nat) : (s.loadV x b).out = s.out := rfl

/-! ### takeFault -/

@[simp] theorem takeFault_v (c : FaultCause) (a op : Word) (f : Bool) (m : Nat) : (s.takeFault c a op f m).v = s.v := rfl
@[simp] theorem takeFault_pc (c : FaultCause) (a op : Word) (f : Bool) (m : Nat) : (s.takeFault c a op f m).pc = s.pc := rfl
@[simp] theorem takeFault_i (c : FaultCause) (a op : Word) (f : Bool) (m : Nat) : (s.takeFault c a op f m).i = s.i := rfl
@[simp] theorem takeFault_sp (c : FaultCause) (a op : Word) (f : Bool) (m : Nat) : (s.takeFault c a op f m).sp = s.sp := rfl
@[simp] theorem takeFault_stack (c : FaultCause) (a op : Word) (f : Bool) (m : Nat) : (s.takeFault c a op f m).stack = s.stack := rfl
@[simp] theorem takeFault_dt (c : FaultCause) (a op : Word) (f : Bool) (m : Nat) : (s.takeFault c a op f m).dt = s.dt := rfl
@[simp] theorem takeFault_st (c : FaultCause) (a op : Word) (f : Bool) (m : Nat) : (s.takeFault c a op f m).st = s.st := rfl
@[simp] theorem takeFault_paused (c : FaultCause) (a op : Word) (f : Bool) (m : Nat) : (s.takeFault c a op f m).paused = s.paused := rfl
@[simp] theorem takeFault_keyDest (c : FaultCause) (a op : Word) (f : Bool) (m : Nat) : (s.takeFault c a op f m).keyDest = s.keyDest := rfl
@[simp] theorem takeFault_fault (c : FaultCause) (a op : Word) (f : Bool) (m : Nat) : (s.takeFault c a op f m).fault = ⟨true, c, a, op, f, BitVec.ofNat 17 m⟩ := rfl
@[simp] theorem takeFault_mem (c : FaultCause) (a op : Word) (f : Bool) (m : Nat) : (s.takeFault c a op f m).mem = s.mem := rfl
@[simp] theorem takeFault_font (c : FaultCause) (a op : Word) (f : Bool) (m : Nat) : (s.takeFault c a op f m).font = s.font := rfl
@[simp] theorem takeFault_readByte (c : FaultCause) (a op : Word) (f : Bool) (m : Nat) : (s.takeFault c a op f m).readByte = s.readByte := rfl
@[simp] theorem takeFault_agenda (c : FaultCause) (a op : Word) (f : Bool) (m : Nat) : (s.takeFault c a op f m).agenda = s.agenda := rfl
@[simp] theorem takeFault_rndIn (c : FaultCause) (a op : Word) (f : Bool) (m : Nat) : (s.takeFault c a op f m).rndIn = s.rndIn := rfl
@[simp] theorem takeFault_keyIn (c : FaultCause) (a op : Word) (f : Bool) (m : Nat) : (s.takeFault c a op f m).keyIn = s.keyIn := rfl
@[simp] theorem takeFault_erasedIn (c : FaultCause) (a op : Word) (f : Bool) (m : Nat) : (s.takeFault c a op f m).erasedIn = s.erasedIn := rfl
@[simp] theorem takeFault_draws (c : FaultCause) (a op : Word) (f : Bool) (m : Nat) : (s.takeFault c a op f m).draws = s.draws := rfl
@[simp] theorem takeFault_out (c : FaultCause) (a op : Word) (f : Bool) (m : Nat) : (s.takeFault c a op f m).out = s.out := rfl

/-! ### raise -/

@[simp] theorem raise_v (c : FaultCause) (op : Word) (m : Nat) : (s.raise c op m).v = s.v := rfl
@[simp] theorem raise_pc (c : FaultCause) (op : Word) (m : Nat) : (s.raise c op m).pc = s.pc := rfl
@[simp] theorem raise_i (c : FaultCause) (op : Word) (m : Nat) : (s.raise c op m).i = s.i := rfl
@[simp] theorem raise_sp (c : FaultCause) (op : Word) (m : Nat) : (s.raise c op m).sp = s.sp := rfl
@[simp] theorem raise_stack (c : FaultCause) (op : Word) (m : Nat) : (s.raise c op m).stack = s.stack := rfl
@[simp] theorem raise_dt (c : FaultCause) (op : Word) (m : Nat) : (s.raise c op m).dt = s.dt := rfl
@[simp] theorem raise_st (c : FaultCause) (op : Word) (m : Nat) : (s.raise c op m).st = s.st := rfl
@[simp] theorem raise_paused (c : FaultCause) (op : Word) (m : Nat) : (s.raise c op m).paused = s.paused := rfl
@[simp] theorem raise_keyDest (c : FaultCause) (op : Word) (m : Nat) : (s.raise c op m).keyDest = s.keyDest := rfl
@[simp] theorem raise_fault (c : FaultCause) (op : Word) (m : Nat) : (s.raise c op m).fault = ⟨true, c, s.pc - 2, op, false, BitVec.ofNat 17 m⟩ := rfl
@[simp] theorem raise_mem (c : FaultCause) (op : Word) (m : Nat) : (s.raise c op m).mem = s.mem := rfl
@[simp] theorem raise_font (c : FaultCause) (op : Word) (m : Nat) : (s.raise c op m).font = s.font := rfl
@[simp] theorem raise_readByte (c : FaultCause) (op : Word) (m : Nat) : (s.raise c op m).readByte = s.readByte := rfl
@[simp] theorem raise_agenda (c : FaultCause) (op : Word) (m : Nat) : (s.raise c op m).agenda = s.agenda := rfl
@[simp] theorem raise_rndIn (c : FaultCause) (op : Word) (m : Nat) : (s.raise c op m).rndIn = s.rndIn := rfl
@[simp] theorem raise_keyIn (c : FaultCause) (op : Word) (m : Nat) : (s.raise c op m).keyIn = s.keyIn := rfl
@[simp] theorem raise_erasedIn (c : FaultCause) (op : Word) (m : Nat) : (s.raise c op m).erasedIn = s.erasedIn := rfl
@[simp] theorem raise_draws (c : FaultCause) (op : Word) (m : Nat) : (s.raise c op m).draws = s.draws := rfl
@[simp] theorem raise_out (c : FaultCause) (op : Word) (m : Nat) : (s.raise c op m).out = s.out := rfl

/-! ### raiseFetch -/

@[simp] theorem raiseFetch_v (m : Nat) : (s.raiseFetch m).v = s.v := rfl
@[simp] theorem raiseFetch_pc (m : Nat) : (s.raiseFetch m).pc = s.pc := rfl
@[simp] theorem raiseFetch_i (m : Nat) : (s.raiseFetch m).i = s.i := rfl
@[simp] theorem raiseFetch_sp (m : Nat) : (s.raiseFetch m).sp = s.sp := rfl
@[simp] theorem raiseFetch_stack (m : Nat) : (s.raiseFetch m).stack = s.stack := rfl
@[simp] theorem raiseFetch_dt (m : Nat) : (s.raiseFetch m).dt = s.dt := rfl
@[simp] theorem raiseFetch_st (m : Nat) : (s.raiseFetch m).st = s.st := rfl
@[simp] theorem raiseFetch_paused (m : Nat) : (s.raiseFetch m).paused = s.paused := rfl
@[simp] theorem raiseFetch_keyDest (m : Nat) : (s.raiseFetch m).keyDest = s.keyDest := rfl
@[simp] theorem raiseFetch_fault (m : Nat) : (s.raiseFetch m).fault = ⟨true, .memoryFault, s.pc, 0, true, BitVec.ofNat 17 m⟩ := rfl
@[simp] theorem raiseFetch_mem (m : Nat) : (s.raiseFetch m).mem = s.mem := rfl
@[simp] theorem raiseFetch_font (m : Nat) : (s.raiseFetch m).font = s.font := rfl
@[simp] theorem raiseFetch_readByte (m : Nat) : (s.raiseFetch m).readByte = s.readByte := rfl
@[simp] theorem raiseFetch_agenda (m : Nat) : (s.raiseFetch m).agenda = s.agenda := rfl
@[simp] theorem raiseFetch_rndIn (m : Nat) : (s.raiseFetch m).rndIn = s.rndIn := rfl
@[simp] theorem raiseFetch_keyIn (m : Nat) : (s.raiseFetch m).keyIn = s.keyIn := rfl
@[simp] theorem raiseFetch_erasedIn (m : Nat) : (s.raiseFetch m).erasedIn = s.erasedIn := rfl
@[simp] theorem raiseFetch_draws (m : Nat) : (s.raiseFetch m).draws = s.draws := rfl
@[simp] theorem raiseFetch_out (m : Nat) : (s.raiseFetch m).out = s.out := rfl

/-! ### setFlagResult -/

@[simp] theorem setFlagResult_v (r : Reg) (f x : Byte) : (s.setFlagResult r f x).v = (s.v.set flagReg f).set r x := rfl
@[simp] theorem setFlagResult_pc (r : Reg) (f x : Byte) : (s.setFlagResult r f x).pc = s.pc := rfl
@[simp] theorem setFlagResult_i (r : Reg) (f x : Byte) : (s.setFlagResult r f x).i = s.i := rfl
@[simp] theorem setFlagResult_sp (r : Reg) (f x : Byte) : (s.setFlagResult r f x).sp = s.sp := rfl
@[simp] theorem setFlagResult_stack (r : Reg) (f x : Byte) : (s.setFlagResult r f x).stack = s.stack := rfl
@[simp] theorem setFlagResult_dt (r : Reg) (f x : Byte) : (s.setFlagResult r f x).dt = s.dt := rfl
@[simp] theorem setFlagResult_st (r : Reg) (f x : Byte) : (s.setFlagResult r f x).st = s.st := rfl
@[simp] theorem setFlagResult_paused (r : Reg) (f x : Byte) : (s.setFlagResult r f x).paused = s.paused := rfl
@[simp] theorem setFlagResult_keyDest (r : Reg) (f x : Byte) : (s.setFlagResult r f x).keyDest = s.keyDest := rfl
@[simp] theorem setFlagResult_fault (r : Reg) (f x : Byte) : (s.setFlagResult r f x).fault = s.fault := rfl
@[simp] theorem setFlagResult_mem (r : Reg) (f x : Byte) : (s.setFlagResult r f x).mem = s.mem := rfl
@[simp] theorem setFlagResult_font (r : Reg) (f x : Byte) : (s.setFlagResult r f x).font = s.font := rfl
@[simp] theorem setFlagResult_readByte (r : Reg) (f x : Byte) : (s.setFlagResult r f x).readByte = s.readByte := rfl
@[simp] theorem setFlagResult_agenda (r : Reg) (f x : Byte) : (s.setFlagResult r f x).agenda = s.agenda := rfl
@[simp] theorem setFlagResult_rndIn (r : Reg) (f x : Byte) : (s.setFlagResult r f x).rndIn = s.rndIn := rfl
@[simp] theorem setFlagResult_keyIn (r : Reg) (f x : Byte) : (s.setFlagResult r f x).keyIn = s.keyIn := rfl
@[simp] theorem setFlagResult_erasedIn (r : Reg) (f x : Byte) : (s.setFlagResult r f x).erasedIn = s.erasedIn := rfl
@[simp] theorem setFlagResult_draws (r : Reg) (f x : Byte) : (s.setFlagResult r f x).draws = s.draws := rfl
@[simp] theorem setFlagResult_out (r : Reg) (f x : Byte) : (s.setFlagResult r f x).out = s.out := rfl

/-! ### skipIf -/

@[simp] theorem skipIf_pc (c : Bool) : (s.skipIf c).pc = if c then s.pc + 2 else s.pc := by cases c <;> rfl
@[simp] theorem skipIf_v (c : Bool) : (s.skipIf c).v = s.v := by cases c <;> rfl
@[simp] theorem skipIf_i (c : Bool) : (s.skipIf c).i = s.i := by cases c <;> rfl
@[simp] theorem skipIf_sp (c : Bool) : (s.skipIf c).sp = s.sp := by cases c <;> rfl
@[simp] theorem skipIf_stack (c : Bool) : (s.skipIf c).stack = s.stack := by cases c <;> rfl
@[simp] theorem skipIf_dt (c : Bool) : (s.skipIf c).dt = s.dt := by cases c <;> rfl
@[simp] theorem skipIf_st (c : Bool) : (s.skipIf c).st = s.st := by cases c <;> rfl
@[simp] theorem skipIf_paused (c : Bool) : (s.skipIf c).paused = s.paused := by cases c <;> rfl
@[simp] theorem skipIf_keyDest (c : Bool) : (s.skipIf c).keyDest = s.keyDest := by cases c <;> rfl
@[simp] theorem skipIf_fault (c : Bool) : (s.skipIf c).fault = s.fault := by cases c <;> rfl
@[simp] theorem skipIf_mem (c : Bool) : (s.skipIf c).mem = s.mem := by cases c <;> rfl
@[simp] theorem skipIf_font (c : Bool) : (s.skipIf c).font = s.font := by cases c <;> rfl
@[simp] theorem skipIf_readByte (c : Bool) : (s.skipIf c).readByte = s.readByte := by cases c <;> rfl
@[simp] theorem skipIf_agenda (c : Bool) : (s.skipIf c).agenda = s.agenda := by cases c <;> rfl
@[simp] theorem skipIf_rndIn (c : Bool) : (s.skipIf c).rndIn = s.rndIn := by cases c <;> rfl
@[simp] theorem skipIf_keyIn (c : Bool) : (s.skipIf c).keyIn = s.keyIn := by cases c <;> rfl
@[simp] theorem skipIf_erasedIn (c : Bool) : (s.skipIf c).erasedIn = s.erasedIn := by cases c <;> rfl
@[simp] theorem skipIf_draws (c : Bool) : (s.skipIf c).draws = s.draws := by cases c <;> rfl
@[simp] theorem skipIf_out (c : Bool) : (s.skipIf c).out = s.out := by cases c <;> rfl

/-! ### Reading a register back -/

/-- A register write lands in its register and in no other. -/
theorem setV_get (r q : Reg) (x : Byte) : (s.setV r x).v[q] = if q = r then x else s.v[q] := by
  by_cases h : q = r
  · subst h; simp
  · have : r.val ≠ q.val := fun e => h (Fin.ext e.symm)
    simp [h, this]

/-- A flag and a result: the result lands in `V[r]` also when `r` is `VF`, and otherwise `VF` holds the flag
(R15). -/
theorem setFlagResult_get (r q : Reg) (f x : Byte) :
    (s.setFlagResult r f x).v[q] = if q = r then x else if q = flagReg then f else s.v[q] := by
  simp only [setFlagResult, setV_get]

/-- A block load writes `V[0]` to `V[x]` from consecutive bytes and no other register (R126). -/
theorem loadV_get (x q : Reg) (b : Nat) :
    (s.loadV x b).v[q] = if q ≤ x then s.readByte (b + q.val) else s.v[q] := by
  simp [loadV]

end Sys2Proof.Machine.State
end

