-- ==== Sys2Proof/Laws/Ops.lean ====
section
/-! SUPPORT. What each shared operation can do, said once: the range check, the call stack, the free inputs, the
toggles of a draw, fetch and the placing of a word. -/

namespace Sys2Proof.Machine

/-! ## The range check (R48, R127) -/

theorem rangeFault_eq_none {base len : Nat} : rangeFault base len = none ↔ (len = 0 ∨ base + len ≤ 4096) := by
  unfold rangeFault; split <;> simp <;> omega

theorem rangeFault_eq_some {base len m : Nat} :
    rangeFault base len = some m ↔ (0 < len ∧ 4096 < base + len ∧ m = max base 0x1000) := by
  unfold rangeFault; split
  · simp only [Option.some.injEq]; omega
  · simp; omega

theorem withRange_ok {base len : Nat} {i : Instr} {s ok : State} (h : len = 0 ∨ base + len ≤ 4096) :
    withRange base len i s ok = .next ok := by
  simp [withRange, rangeFault_eq_none.2 h]

theorem withRange_fault {base len : Nat} {i : Instr} {s ok : State} (h0 : 0 < len) (h : 4096 < base + len) :
    withRange base len i s ok = .next (s.raise .memoryFault (encode i) (max base 0x1000)) := by
  simp [withRange, rangeFault_eq_some.2 ⟨h0, h, rfl⟩]

/-! ## Memory of the machine (R46, R52) -/

/-- A store inside memory keeps the canonical form. -/
theorem State.storeBytes_memWf {s : State} {a : Nat} {xs : List Byte} (h : s.memWf = true)
    (ha : a + xs.length ≤ 4096) : (s.storeBytes a xs).memWf = true :=
  Memory.writeBytes_wf xs h ha

/-- A store puts its `k`-th byte at the `k`-th address. -/
theorem State.readByte_storeBytes_at {s : State} {a : Nat} {xs : List Byte} (k : Nat) (hk : k < xs.length)
    (h : s.memWf = true) (ha : a + xs.length ≤ 4096) : (s.storeBytes a xs).readByte (a + k) = xs[k] :=
  Memory.read_writeBytes_at xs k hk h ha

/-- A store leaves every other byte alone. -/
theorem State.readByte_storeBytes_other (s : State) {a c : Nat} {xs : List Byte}
    (h : ¬ (a ≤ c ∧ c < a + xs.length)) : (s.storeBytes a xs).readByte c = s.readByte c :=
  Memory.read_writeBytes_other xs s.mem a c h

/-- A memory that lists nothing reads as reset left it: the font below 0x050 and 0 above (R27). -/
theorem State.readByte_of_mem_nil {s : State} (h : s.mem = []) (a : Nat) :
    s.readByte a = if h : a < 80 then s.font[a] else 0 := by
  rw [State.readByte, h]; rfl

/-! ## The call stack (R19) -/

theorem State.push_eq {s : State} (x : Word) (h : s.sp.val < 16) :
    s.push x = some { s with stack := s.stack.set s.sp.val x, sp := ⟨s.sp.val + 1, by omega⟩ } := by
  simp [State.push, h]

theorem State.push_full {s : State} (x : Word) (h : s.sp.val = 16) : s.push x = none := by
  simp [State.push, h]

theorem State.pop_eq {s : State} (h : 0 < s.sp.val) :
    s.pop = some (s.stack[s.sp.val - 1]'(by omega), { s with sp := ⟨s.sp.val - 1, by omega⟩ }) := by
  simp [State.pop, h]

theorem State.pop_empty {s : State} (h : s.sp.val = 0) : s.pop = none := by
  simp [State.pop, h]

/-! ## The free inputs (R6) -/

theorem State.drawRnd_spec (s : State) : RndDrawn s s.drawRnd.1 s.drawRnd.2 := by
  unfold State.drawRnd RndDrawn
  split
  · rename_i h; exact .inl ⟨_, h, rfl⟩
  · rename_i h; exact .inr ⟨h, rfl, rfl⟩

theorem State.drawKeys_spec (s : State) : KeysSeen s s.drawKeys.1 s.drawKeys.2 := by
  unfold State.drawKeys KeysSeen
  split
  · rename_i h; exact .inl ⟨_, h, rfl⟩
  · rename_i h; exact .inr ⟨h, rfl, rfl⟩

/-- A random draw touches only the model's own input fields. -/
theorem State.drawRnd_frame (s : State) :
    s.drawRnd.2 = { s with rndIn := s.drawRnd.2.rndIn, draws := s.drawRnd.2.draws } := by
  rcases s.drawRnd_spec with ⟨rest, -, h⟩ | ⟨-, -, h⟩ <;> rw [h]

/-- A key query touches only the model's own input fields. -/
theorem State.keyHeld_frame (s : State) (k : Byte) :
    (s.keyHeld k).2 = { s with keyIn := (s.keyHeld k).2.keyIn, draws := (s.keyHeld k).2.draws } := by
  unfold State.keyHeld; split
  · rcases s.drawKeys_spec with ⟨rest, -, h⟩ | ⟨-, -, h⟩ <;> simp [h]
  · rfl

/-- The toggles of a draw: one command for each point in order, and whether any answer was true (R143). -/
theorem State.togglePixels_spec (ps : List (Coord × Coord)) : ∀ s : State, s.togglePixels ps =
    ((s.answers ps.length).any id,
      { s.afterAnswers ps.length with out := s.out ++ ps.map fun p => .toggle p.1 p.2 }) := by
  induction ps with
  | nil => intro s; simp [State.togglePixels, State.answers, State.afterAnswers]
  | cons p ps ih =>
    intro s
    rw [State.togglePixels]
    simp only [ih]
    cases h : s.erasedIn with
    | nil =>
      have e : ∀ k, s.draws + 1 + k = s.draws + (k + 1) := by omega
      simp [State.drawErased, State.answers, State.afterAnswers, State.emit, h, List.range_succ_eq_map,
        Function.comp_def, e]
    | cons e rest =>
      simp [State.drawErased, State.answers, State.afterAnswers, State.emit, h]

/-! ## Fetch (R45) -/

theorem fetch_ok {s : State} (h : s.pc.toNat ≤ 0xFFE) : fetch s = .ok s.wordAtPc := by
  simp [fetch, State.wordAtPc, rangeFault_eq_none.2 (show 2 = 0 ∨ s.pc.toNat + 2 ≤ 4096 by omega)]

theorem fetch_error {s : State} (h : 0xFFE < s.pc.toNat) : fetch s = .error (max s.pc.toNat 0x1000) := by
  simp [fetch, rangeFault_eq_some.2 ⟨(by decide : 0 < 2), (by omega : 4096 < s.pc.toNat + 2), rfl⟩]

/-- The word placed for the host is the word the next fetch reads. -/
theorem fetch_placeWord (s : State) (w : Word) (h : s.memWf = true) : fetch (s.placeWord w) = .ok w := by
  have ha : (s.placeWord w).pc.toNat ≤ 0xFFE := by
    simp only [State.placeWord]; split
    · assumption
    · decide
  rw [fetch_ok ha, State.wordAtPc]
  have hb : ∀ k (hk : k < 2), (s.placeWord w).readByte ((s.placeWord w).pc.toNat + k) =
      [w.extractLsb' 8 8, w.extractLsb' 0 8][k] := fun k hk =>
    Memory.read_writeBytes_at [w.extractLsb' 8 8, w.extractLsb' 0 8] k hk h
      (by show (s.placeWord w).pc.toNat + 2 ≤ 4096; omega)
  rw [hb 1 (by decide), show (s.placeWord w).pc.toNat = (s.placeWord w).pc.toNat + 0 from rfl, hb 0 (by decide)]
  exact congrArg _ (wordOfBytes_bytes w)

end Sys2Proof.Machine
end

