-- ==== Sys2Proof/Laws/PerInstr.lean ====
section
/-! SUPPORT. Statements made of every instruction, one lemma per constructor. -/

namespace Sys2Proof.Laws.RowCovers

/-- The word of an instruction lies on the instruction's own row of the opcode map (R66): its fixed bits are
the row's `match`. -/
def Statement (i : Instr) : Prop := i.row.covers (encode i) = true

theorem covers_F000_NNN {t : BitVec 4} {nnn : BitVec 12} {p : Word} (h : p.toNat = t.toNat * 4096) :
    OpcodeRow.covers ⟨0xF000#16, p⟩ (formNNN t nnn) = true := by
  have := nnn.isLt
  simp only [OpcodeRow.covers, beq_iff_eq, ← BitVec.toNat_inj, and_F000, formNNN_toNat]; omega

theorem covers_F000_XKK {t : BitVec 4} {x : Reg} {kk : Byte} {p : Word} (h : p.toNat = t.toNat * 4096) :
    OpcodeRow.covers ⟨0xF000#16, p⟩ (formXKK t x kk) = true := by
  have := x.isLt; have := kk.isLt
  simp only [OpcodeRow.covers, beq_iff_eq, ← BitVec.toNat_inj, and_F000, formXKK_toNat]; omega

theorem covers_F0FF_XKK {t : BitVec 4} {x : Reg} {kk : Byte} {p : Word}
    (h : p.toNat = t.toNat * 4096 + kk.toNat) : OpcodeRow.covers ⟨0xF0FF#16, p⟩ (formXKK t x kk) = true := by
  have := x.isLt; have := kk.isLt
  simp only [OpcodeRow.covers, beq_iff_eq, ← BitVec.toNat_inj, and_F0FF, formXKK_toNat]; omega

theorem covers_F000_XYN {t : BitVec 4} {x y : Reg} {n : BitVec 4} {p : Word} (h : p.toNat = t.toNat * 4096) :
    OpcodeRow.covers ⟨0xF000#16, p⟩ (formXYN t x y n) = true := by
  have := x.isLt; have := y.isLt; have := n.isLt
  simp only [OpcodeRow.covers, beq_iff_eq, ← BitVec.toNat_inj, and_F000, formXYN_toNat]; omega

theorem covers_F00F_XYN {t : BitVec 4} {x y : Reg} {n : BitVec 4} {p : Word}
    (h : p.toNat = t.toNat * 4096 + n.toNat) : OpcodeRow.covers ⟨0xF00F#16, p⟩ (formXYN t x y n) = true := by
  have := x.isLt; have := y.isLt; have := n.isLt
  simp only [OpcodeRow.covers, beq_iff_eq, ← BitVec.toNat_inj, and_F00F, formXYN_toNat]; omega

theorem cls : Statement (.cls) := by unfold Statement; decide
theorem ret : Statement (.ret) := by unfold Statement; decide
theorem jp (nnn : BitVec 12) : Statement (.jp nnn) := covers_F000_NNN (by decide)
theorem call (nnn : BitVec 12) : Statement (.call nnn) := covers_F000_NNN (by decide)
theorem seByte (x : Reg) (kk : Byte) : Statement (.seByte x kk) := covers_F000_XKK (by decide)
theorem sneByte (x : Reg) (kk : Byte) : Statement (.sneByte x kk) := covers_F000_XKK (by decide)
theorem seReg (x y : Reg) : Statement (.seReg x y) := covers_F00F_XYN (by decide)
theorem ldByte (x : Reg) (kk : Byte) : Statement (.ldByte x kk) := covers_F000_XKK (by decide)
theorem addByte (x : Reg) (kk : Byte) : Statement (.addByte x kk) := covers_F000_XKK (by decide)
theorem ldReg (x y : Reg) : Statement (.ldReg x y) := covers_F00F_XYN (by decide)
theorem orReg (x y : Reg) : Statement (.orReg x y) := covers_F00F_XYN (by decide)
theorem andReg (x y : Reg) : Statement (.andReg x y) := covers_F00F_XYN (by decide)
theorem xorReg (x y : Reg) : Statement (.xorReg x y) := covers_F00F_XYN (by decide)
theorem addReg (x y : Reg) : Statement (.addReg x y) := covers_F00F_XYN (by decide)
theorem subReg (x y : Reg) : Statement (.subReg x y) := covers_F00F_XYN (by decide)
theorem shr (x y : Reg) : Statement (.shr x y) := covers_F00F_XYN (by decide)
theorem subnReg (x y : Reg) : Statement (.subnReg x y) := covers_F00F_XYN (by decide)
theorem shl (x y : Reg) : Statement (.shl x y) := covers_F00F_XYN (by decide)
theorem sneReg (x y : Reg) : Statement (.sneReg x y) := covers_F00F_XYN (by decide)
theorem ldI (nnn : BitVec 12) : Statement (.ldI nnn) := covers_F000_NNN (by decide)
theorem jpV0 (nnn : BitVec 12) : Statement (.jpV0 nnn) := covers_F000_NNN (by decide)
theorem rnd (x : Reg) (kk : Byte) : Statement (.rnd x kk) := covers_F000_XKK (by decide)
theorem drw (x y : Reg) (n : BitVec 4) : Statement (.drw x y n) := covers_F000_XYN (by decide)
theorem skp (x : Reg) : Statement (.skp x) := covers_F0FF_XKK (by decide)
theorem sknp (x : Reg) : Statement (.sknp x) := covers_F0FF_XKK (by decide)
theorem ldVxDT (x : Reg) : Statement (.ldVxDT x) := covers_F0FF_XKK (by decide)
theorem ldVxK (x : Reg) : Statement (.ldVxK x) := covers_F0FF_XKK (by decide)
theorem ldDTVx (x : Reg) : Statement (.ldDTVx x) := covers_F0FF_XKK (by decide)
theorem ldSTVx (x : Reg) : Statement (.ldSTVx x) := covers_F0FF_XKK (by decide)
theorem addI (x : Reg) : Statement (.addI x) := covers_F0FF_XKK (by decide)
theorem ldF (x : Reg) : Statement (.ldF x) := covers_F0FF_XKK (by decide)
theorem ldB (x : Reg) : Statement (.ldB x) := covers_F0FF_XKK (by decide)
theorem storeRegs (x : Reg) : Statement (.storeRegs x) := covers_F0FF_XKK (by decide)
theorem loadRegs (x : Reg) : Statement (.loadRegs x) := covers_F0FF_XKK (by decide)

end Sys2Proof.Laws.RowCovers
end

