-- ==== Sys2Proof/Laws/Step.lean ====
section
/-! SUPPORT. The cases of one step (spec/70_reset_and_hazards.md R240), each said once, so that no proof unfolds
`stepEvent`. -/

namespace Sys2Proof.Machine

theorem stepEvent_of_fault {s : State} (h : s.fault.valid = true) : stepEvent s = .next s := by
  simp [stepEvent, h]

theorem stepEvent_of_paused {s : State} (h : s.paused = true) : stepEvent s = .next s := by
  unfold stepEvent; split <;> rfl

theorem stepEvent_of_error {s : State} {m : Nat} (hf : s.fault.valid = false) (hp : s.paused = false)
    (h : fetch s = .error m) : stepEvent s = .next (s.raiseFetch m) := by
  unfold stepEvent
  rw [if_neg (by simp [hf]), if_neg (by simp [hp]), h]

theorem stepEvent_of_word {s : State} {op : Word} (hf : s.fault.valid = false) (hp : s.paused = false)
    (h : fetch s = .ok op) : stepEvent s = dispatch op (s.setPc (s.pc + 2)) := by
  unfold stepEvent
  rw [if_neg (by simp [hf]), if_neg (by simp [hp]), h]

theorem dispatch_of_some {op : Word} {i : Instr} {s : State} (h : decode op = some i) :
    dispatch op s = exec i s := by
  simp [dispatch, h]

theorem dispatch_of_none {op : Word} {s : State} (h : decode op = none) :
    dispatch op s = .next (s.raise .decodeFault op 0) := by
  simp [dispatch, h]

theorem step_of_nil {s : State} (h : s.agenda = []) : step s = stepEvent s := by
  simp [step, advance, h]

theorem step_of_cons {s : State} {e : Event} {rest : List Event} (h : s.agenda = e :: rest) :
    step s = deliver e { s with agenda := rest } := by
  simp [step, advance, h]

/-- A run of the machine takes one step and goes on from there. -/
theorem run_succ {n : Nat} {s t : State} (h : step s = .next t) : core.run (n + 1) s = core.run n t := by
  have h' : core.step s = .next t := h
  simp [Host.Core.run, h']

theorem run_zero (s : State) : core.run 0 s = .next s := rfl

/-- The two halves of a fetched word are its two bytes in memory order. -/
theorem wordOfBytes_halves (hi lo : Byte) :
    (wordOfBytes hi lo).extractLsb' 8 8 = hi ∧ (wordOfBytes hi lo).extractLsb' 0 8 = lo := by
  have h := hi.isLt; have l := lo.isLt
  have e : (wordOfBytes hi lo).toNat = hi.toNat * 256 + lo.toNat := by
    simp only [wordOfBytes, BitVec.toNat_append]
    rw [← Nat.shiftLeft_add_eq_or_of_lt (by omega), Nat.shiftLeft_eq]
  constructor <;> apply BitVec.eq_of_toNat_eq <;>
    simp only [BitVec.extractLsb'_toNat, e, Nat.shiftRight_eq_div_pow] <;> omega

end Sys2Proof.Machine
end

