-- ==== Sys2Proof/Tests/Slice0.lean ====
section
/-! SUPPORT. The model's own tests: decoding of words written out from spec/30_encoding.md R66, the worked examples
E1 to E10 and vectors T1 to T165 of spec/95_test_vectors.md (named in each comment), the smoke test of
WellFormed, and for every statement with hypotheses a state and operands that meet them. -/

namespace Sys2Proof.Tests

open Sys2Proof.Machine

/-! ## Helpers -/

/-- The reset state with a word at 0x200, as the vectors start. -/
def atWord (w : Nat) : State := State.reset.withFetchWord 16 w

/-- General registers with the listed values, the others 0. -/
def regs (l : List (Reg × Byte)) : Vector Byte 16 := l.foldl (fun v p => v.set p.1 p.2) (Vector.replicate 16 0)

/-- Memory with bytes written at an address. -/
def State.poke (s : State) (a : Nat) (bytes : List Byte) : State := s.storeBytes a bytes

/-- One step answers a next state of which `p` holds. -/
def after (s : State) (p : State → Bool) : Bool :=
  match step s with
  | .next t => p t
  | .fault _ => false
  | .refused _ => false

/-- A fault record written `cause / addr / opcode / fetch / maddr`, as in the vectors. -/
def latched (c : FaultCause) (addr op : Word) (f : Bool) (m : BitVec 17) : FaultRecord := ⟨true, c, addr, op, f, m⟩

/-! ## Decoding: the rows of R66, written bit by bit (fields `x = 1`, `y = 2`, `n = A`, `kk = 2A`, `nnn = 12A`, the
values of D0's field example) -/

theorem test_decode_cls : decode 0b0000000011100000 = some .cls := by decide
theorem test_decode_ret : decode 0b0000000011101110 = some .ret := by decide
theorem test_decode_jp : decode 0b0001000100101010 = some (.jp 0x12A) := by decide
theorem test_decode_call : decode 0b0010000100101010 = some (.call 0x12A) := by decide
theorem test_decode_seByte : decode 0b0011000100101010 = some (.seByte 1 0x2A) := by decide
theorem test_decode_sneByte : decode 0b0100000100101010 = some (.sneByte 1 0x2A) := by decide
theorem test_decode_seReg : decode 0b0101000100100000 = some (.seReg 1 2) := by decide
theorem test_decode_ldByte : decode 0b0110000100101010 = some (.ldByte 1 0x2A) := by decide
theorem test_decode_addByte : decode 0b0111000100101010 = some (.addByte 1 0x2A) := by decide
theorem test_decode_ldReg : decode 0b1000000100100000 = some (.ldReg 1 2) := by decide
theorem test_decode_orReg : decode 0b1000000100100001 = some (.orReg 1 2) := by decide
theorem test_decode_andReg : decode 0b1000000100100010 = some (.andReg 1 2) := by decide
theorem test_decode_xorReg : decode 0b1000000100100011 = some (.xorReg 1 2) := by decide
theorem test_decode_addReg : decode 0b1000000100100100 = some (.addReg 1 2) := by decide
theorem test_decode_subReg : decode 0b1000000100100101 = some (.subReg 1 2) := by decide
theorem test_decode_shr : decode 0b1000000100100110 = some (.shr 1 2) := by decide
theorem test_decode_subnReg : decode 0b1000000100100111 = some (.subnReg 1 2) := by decide
theorem test_decode_shl : decode 0b1000000100101110 = some (.shl 1 2) := by decide
theorem test_decode_sneReg : decode 0b1001000100100000 = some (.sneReg 1 2) := by decide
theorem test_decode_ldI : decode 0b1010000100101010 = some (.ldI 0x12A) := by decide
theorem test_decode_jpV0 : decode 0b1011000100101010 = some (.jpV0 0x12A) := by decide
theorem test_decode_rnd : decode 0b1100000100101010 = some (.rnd 1 0x2A) := by decide
theorem test_decode_drw : decode 0b1101000100101010 = some (.drw 1 2 0xA) := by decide
theorem test_decode_skp : decode 0b1110000110011110 = some (.skp 1) := by decide
theorem test_decode_sknp : decode 0b1110000110100001 = some (.sknp 1) := by decide
theorem test_decode_ldVxDT : decode 0b1111000100000111 = some (.ldVxDT 1) := by decide
theorem test_decode_ldVxK : decode 0b1111000100001010 = some (.ldVxK 1) := by decide
theorem test_decode_ldDTVx : decode 0b1111000100010101 = some (.ldDTVx 1) := by decide
theorem test_decode_ldSTVx : decode 0b1111000100011000 = some (.ldSTVx 1) := by decide
theorem test_decode_addI : decode 0b1111000100011110 = some (.addI 1) := by decide
theorem test_decode_ldF : decode 0b1111000100101001 = some (.ldF 1) := by decide
theorem test_decode_ldB : decode 0b1111000100110011 = some (.ldB 1) := by decide
theorem test_decode_storeRegs : decode 0b1111000101010101 = some (.storeRegs 1) := by decide
theorem test_decode_loadRegs : decode 0b1111000101100101 = some (.loadRegs 1) := by decide

/-- T6 to T11 and E9: illegal words of every group with one. -/
theorem test_decode_illegal :
    [0x0000, 0x00E1, 0x00FE, 0x0123, 0x5121, 0x912F, 0x8128, 0x812F, 0x8009, 0xE19F, 0xE000, 0xE1A2, 0xF100, 0xF156,
      0xF1FF, 0xF00B, 0xFFFF].all (fun w : Nat => decode (BitVec.ofNat 16 w) == none) = true := by decide
theorem test_decodeTableWord : decodeTableWord 16 0xF365 = some (.loadRegs 3) := by decide
theorem test_decodeBytes_truncated : decodeBytes [0x12] = .error .truncated := by rfl
theorem test_decodeBytes_illegal : decodeBytes [0x00, 0x00] = .error (.illegalWord 0) := by rfl

/-! ## WellFormed: operands fit by type (R10), so the ill-formed terms are events (R175) -/

theorem test_wellFormed_every_instruction (i : Instr) : i.wellFormed = true := by
  cases i <;> simp [Instr.wellFormed] <;> omega
theorem test_imageFits_refuses_3585 : imageFits (List.replicate 3585 0) = false := by
  rw [imageFits, List.length_replicate]; decide
theorem test_imageFits_accepts_3584 : imageFits (List.replicate 3584 0) = true := by
  rw [imageFits, List.length_replicate]; decide
theorem test_event_refuses_3585 : (Event.load (List.replicate 3585 0)).wellFormed = false := by
  rw [Event.wellFormed, imageFits, List.length_replicate]; decide

/-! ## Fetch and dispatch -/

/-- T2: an odd `PC` is legal. -/
theorem test_fetch_odd : after (State.poke { State.reset with pc := 0x201 } 0x201 [0x60, 0x77])
    (fun t => t.v[0] == 0x77 && t.pc == 0x203) = true := by decide
/-- T3: the last word of memory. -/
theorem test_fetch_top : after (State.poke { State.reset with pc := 0xFFE } 0xFFE [0x61, 0x01])
    (fun t => t.v[1] == 0x01 && t.pc == 0x1000) = true := by decide
/-- T4. -/
theorem test_fetch_fault_1000 : after { State.reset with pc := 0x1000 }
    (fun t => t.fault == latched .memoryFault 0x1000 0 true 0x1000 && t.pc == 0x1000) = true := by decide
/-- T5: the second byte is out of range. -/
theorem test_fetch_fault_FFF : after { State.reset with pc := 0xFFF }
    (fun t => t.fault == latched .memoryFault 0x0FFF 0 true 0x1000 && t.pc == 0x0FFF) = true := by decide
/-- E9. -/
theorem test_illegal_FFFF : after (atWord 0xFFFF)
    (fun t => t.fault == latched .decodeFault 0x200 0xFFFF false 0 && t.pc == 0x202) = true := by decide
/-- T163 (R233): a reset machine with nothing loaded. -/
theorem test_no_program : after State.reset
    (fun t => t.fault == latched .decodeFault 0x200 0 false 0 && t.pc == 0x202) = true := by decide

/-! ## Control flow -/

/-- T24 and T25: the 16th call fits, the 17th faults. -/
theorem test_call_16th : after { atWord 0x2300 with sp := 15 }
    (fun t => t.stack[15] == 0x202 && t.sp == 16 && t.pc == 0x300) = true := by decide
theorem test_call_17th : after { atWord 0x2300 with sp := 16 }
    (fun t => t.fault == latched .stackOverflow 0x200 0x2300 false 0 && t.sp == 16 && t.pc == 0x202) = true := by decide
/-- T26. -/
theorem test_ret_empty : after (atWord 0x00EE)
    (fun t => t.fault == latched .stackUnderflow 0x200 0x00EE false 0 && t.pc == 0x202) = true := by decide
/-- T27: the popped entry stays in the array. -/
theorem test_ret_pops : after { atWord 0x00EE with sp := 2, stack := (State.reset.stack.set 0 0x204).set 1 0x456 }
    (fun t => t.sp == 1 && t.pc == 0x456 && t.stack[1] == 0x456) = true := by decide
/-- T20. -/
theorem test_jp : after (atWord 0x1234) (fun t => t.pc == 0x234) = true := by decide
/-- T28 to T36: the skips. -/
theorem test_seByte : after { atWord 0x332A with v := regs [(3, 0x2A)] } (fun t => t.pc == 0x204) = true := by decide
theorem test_sneByte : after { atWord 0x432A with v := regs [(3, 0x2A)] } (fun t => t.pc == 0x202) = true := by decide
theorem test_seReg : after { atWord 0x5120 with v := regs [(1, 7), (2, 8)] } (fun t => t.pc == 0x202) = true := by decide
theorem test_sneReg : after { atWord 0x9120 with v := regs [(1, 7), (2, 8)] } (fun t => t.pc == 0x204) = true := by decide
/-- T38: the sum is not reduced. -/
theorem test_jpV0 : after { atWord 0xBFFF with v := regs [(0, 0xFF)] }
    (fun t => t.pc == 0x10FE && !t.fault.valid) = true := by decide
/-- T41: the skipped word is not decoded. -/
theorem test_skip_over_illegal : after (State.poke (atWord 0x3000) 0x202 [0xFF, 0xFF])
    (fun t => t.pc == 0x204 && !t.fault.valid) = true := by decide

/-! ## Registers and ALU -/

/-- T50, T53, T55 to T58. -/
theorem test_ldByte : after (atWord 0x63AB) (fun t => t.v[3] == 0xAB) = true := by decide
theorem test_addByte : after { atWord 0x7201 with v := regs [(2, 0xFF), (15, 9)] }
    (fun t => t.v[2] == 0 && t.v[15] == 9) = true := by decide
theorem test_ldReg : after { atWord 0x8340 with v := regs [(4, 0x5C)] } (fun t => t.v[3] == 0x5C) = true := by decide
theorem test_orReg : after { atWord 0x8011 with v := regs [(0, 0xF0), (1, 0x3C)] } (fun t => t.v[0] == 0xFC) = true := by
  decide
theorem test_andReg : after { atWord 0x8012 with v := regs [(0, 0xF0), (1, 0x3C)] } (fun t => t.v[0] == 0x30) = true := by
  decide
theorem test_xorReg : after { atWord 0x8013 with v := regs [(0, 0xF0), (1, 0x3C)] } (fun t => t.v[0] == 0xCC) = true := by
  decide
/-- E2 and T64. -/
theorem test_addReg : after { atWord 0x8014 with v := regs [(0, 250), (1, 10)] }
    (fun t => t.v[0] == 4 && t.v[15] == 1) = true := by decide
theorem test_addReg_VF : after { atWord 0x8F14 with v := regs [(15, 0xF0), (1, 0x20)] }
    (fun t => t.v[15] == 0x10) = true := by decide
/-- E3 and T70; T67: equal operands give flag 0. -/
theorem test_subReg_equal : after { atWord 0x8015 with v := regs [(0, 7), (1, 7), (15, 1)] }
    (fun t => t.v[0] == 0 && t.v[15] == 0) = true := by decide
theorem test_subReg_VF_operand : after { atWord 0x81F5 with v := regs [(1, 5), (15, 3)] }
    (fun t => t.v[1] == 2 && t.v[15] == 1) = true := by decide
/-- T73: `Vy` is not used. -/
theorem test_shr : after { atWord 0x8016 with v := regs [(0, 0xFE), (1, 0x55), (15, 1)] }
    (fun t => t.v[0] == 0x7F && t.v[15] == 0) = true := by decide
/-- T76 and T78. -/
theorem test_subnReg : after { atWord 0x8017 with v := regs [(0, 10), (1, 5), (15, 1)] }
    (fun t => t.v[0] == 251 && t.v[15] == 0) = true := by decide
theorem test_subnReg_VF : after { atWord 0x8F17 with v := regs [(15, 3), (1, 5)] } (fun t => t.v[15] == 2) = true := by
  decide
/-- E4. -/
theorem test_shl : after { atWord 0x800E with v := regs [(0, 0x81)] } (fun t => t.v[0] == 2 && t.v[15] == 1) = true := by
  decide
/-- T83. -/
theorem test_rnd : after { atWord 0xC30F with rndIn := [0xA7] } (fun t => t.v[3] == 0x07 && t.rndIn == []) = true := by
  decide

/-! ## Index and memory -/

/-- T91, T94, T98. -/
theorem test_ldI : after (atWord 0xAFFF) (fun t => t.i == 0x0FFF) = true := by decide
theorem test_addI_wraps : after { atWord 0xF01E with i := 0xFFFF, v := regs [(0, 1)] }
    (fun t => t.i == 0 && t.v[15] == 0) = true := by decide
theorem test_ldF : after { atWord 0xF229 with v := regs [(2, 0xFF)] } (fun t => t.i == 0x4FB) = true := by decide
/-- E5 and T105. -/
theorem test_ldB : after { atWord 0xF033 with v := regs [(0, 157)], i := 0x300 }
    (fun t => t.readByte 0x300 == 1 && t.readByte 0x301 == 5 && t.readByte 0x302 == 7) = true := by
  decide
theorem test_ldB_fault : after { atWord 0xF033 with v := regs [(0, 255)], i := 0xFFE }
    (fun t => t.fault == latched .memoryFault 0x200 0xF033 false 0x1000 && t.mem == (atWord 0xF033).mem) = true := by
  decide
/-- T107 and T109. -/
theorem test_storeRegs : after { atWord 0xF155 with v := regs [(0, 0x11), (1, 0x22), (2, 0x33)], i := 0x300 }
    (fun t => t.readByte 0x300 == 0x11 && t.readByte 0x301 == 0x22 && t.readByte 0x302 == 0
      && t.i == 0x300) = true := by decide
theorem test_storeRegs_fault : after { atWord 0xFF55 with i := 0xFF1 }
    (fun t => t.fault == latched .memoryFault 0x200 0xFF55 false 0x1000) = true := by decide
/-- T111 and T112. -/
theorem test_loadRegs : after { atWord 0xF465 with v := regs [(5, 7)] }
    (fun t => t.v[0] == 0xF0 && t.v[1] == 0x90 && t.v[4] == 0xF0 && t.v[5] == 7 && t.i == 0) = true := by decide
theorem test_loadRegs_fault : after { atWord 0xFF65 with i := 0x2000 }
    (fun t => t.fault == latched .memoryFault 0x200 0xFF65 false 0x2000) = true := by decide

/-! ## Display, keyboard, timers -/

/-- T120. -/
theorem test_cls : after (atWord 0x00E0) (fun t => t.out == [.clear] && t.pc == 0x202) = true := by decide
/-- T121 and T123; T126 and T127. -/
theorem test_drw : after (State.poke { atWord 0xD121 with i := 0x300, v := regs [(1, 10), (2, 20)], erasedIn := [false, true] }
    0x300 [0x81]) (fun t => t.out == [.toggle 10 20, .toggle 17 20] && t.v[15] == 1) = true := by decide
theorem test_drw_fault : after (State.poke { atWord 0xD002 with i := 0xFFF, v := regs [(15, 9)] } 0xFFF [0x80])
    (fun t => t.fault == latched .memoryFault 0x200 0xD002 false 0x1000 && t.out == [] && t.v[15] == 9) = true := by decide
/-- T130 and T134. -/
theorem test_skp : after { atWord 0xE49E with v := regs [(4, 7)], keyIn := [0x80] } (fun t => t.pc == 0x204) = true := by
  decide
theorem test_skp_no_such_key : after { atWord 0xE49E with v := regs [(4, 0x1F)], keyIn := [0xFFFF] }
    (fun t => t.pc == 0x202 && t.keyIn == [0xFFFF]) = true := by decide
/-- T133 and T135. -/
theorem test_sknp : after { atWord 0xE4A1 with v := regs [(4, 7)], keyIn := [0x80] } (fun t => t.pc == 0x202) = true := by
  decide
theorem test_sknp_no_such_key : after { atWord 0xE4A1 with v := regs [(4, 0x1F)], keyIn := [0xFFFF] }
    (fun t => t.pc == 0x204) = true := by decide
/-- T136. -/
theorem test_ldVxK : after (atWord 0xF30A)
    (fun t => t.paused && t.keyDest == 3 && t.pc == 0x202 && t.v[3] == 0) = true := by decide
/-- T153, T150, T151. -/
theorem test_ldVxDT : after { atWord 0xF207 with dt := 0x2A } (fun t => t.v[2] == 0x2A && t.dt == 0x2A) = true := by decide
theorem test_ldDTVx : after { atWord 0xF115 with v := regs [(1, 0x3C)] } (fun t => t.dt == 0x3C) = true := by decide
theorem test_ldSTVx : after { atWord 0xF118 with v := regs [(1, 5)] } (fun t => t.st == 5 && t.toneOn) = true := by decide

/-! ## Events -/

/-- T137: a key press ends the wait. -/
theorem test_keyPress : after { State.reset with paused := true, keyDest := 3, agenda := [.keyPress 0xC] }
    (fun t => t.v[3] == 0x0C && !t.paused) = true := by decide
/-- T138: no wait, no effect. -/
theorem test_keyPress_ignored : after { State.reset with keyDest := 3, agenda := [.keyPress 0xC] }
    (fun t => t == { State.reset with keyDest := 3 }) = true := by decide
/-- T139: a step while paused changes nothing. -/
theorem test_paused_step : after { State.reset with paused := true, pc := 0x206 }
    (fun t => t == { State.reset with paused := true, pc := 0x206 }) = true := by decide
/-- T154 and T157: the tick, also while faulted. -/
theorem test_tick : after { State.reset with dt := 3, st := 1, agenda := [.tick] }
    (fun t => t.dt == 2 && t.st == 0) = true := by decide
theorem test_tick_faulted :
    after { State.reset with dt := 2, fault := latched .decodeFault 0x200 0 false 0, agenda := [.tick] }
      (fun t => t.dt == 1 && t.fault == latched .decodeFault 0x200 0 false 0) = true := by decide
/-- R6, R230: reset writes the parameter `FONT`, whatever its value, and its default is the table of R28. -/
theorem test_reset_other_font :
    after { State.reset with font := Vector.replicate 80 0x5A, agenda := [.reset] }
      (fun t => t.readByte 0x04F == 0x5A && t.readByte 0x050 == 0) = true := by decide
theorem test_default_font : (State.reset.readByte 0x000 == 0xF0 && State.reset.readByte 0x014 == 0x90
    && State.reset.readByte 0x04E == 0x80 && State.reset.readByte 0x04F == 0x80) = true := by decide
/-- T164: a load writes its bytes and nothing more. -/
theorem test_load : after { State.reset with agenda := [.load [0x12, 0x00]] }
    (fun t => t.readByte 0x200 == 0x12 && t.readByte 0x201 == 0 && t.pc == 0x200) = true := by decide
/-- T160: a reset from a faulted state. -/
theorem test_reset :
    after { atWord 0x1234 with v := regs [(1, 7)], fault := latched .stackOverflow 0 0 false 0, agenda := [.reset] }
      (fun t => t == State.reset) = true := by decide
/-- E8 and the last draws of P5: with the reference renderer the same sprite drawn twice sets `VF` the second time
and leaves the screen blank. -/
theorem test_draw_twice :
    (match runOnScreen 2 (State.poke { atWord 0xD012 with i := 0x20C, v := regs [(0, 2), (1, 3)] } 0x202
        [0xD0, 0x12, 0, 0, 0, 0, 0, 0, 0, 0, 0xC0, 0x80]) (Screen.blank defaultScreenSize) with
      | .next p => p.1.v[15] == 1 && p.1.out.length == 6 && !(p.2.pixel 2 3) && !(p.2.pixel 3 3) && !(p.2.pixel 2 4)
      | .fault _ => false
      | .refused _ => false) = true := by decide

/-! ## Witnesses: the hypotheses of the statements can be met -/

theorem witness_EncodeOfDecode : decode 0x6312 = some (.ldByte 3 0x12) := by decide

theorem witness_StepRunsTheDecodedInstruction :
    (atWord 0x6312).Ready ∧ decode (atWord 0x6312).wordAtPc = some (.ldByte 3 0x12) := by
  refine ⟨⟨rfl, rfl, rfl, ?_⟩, ?_⟩ <;> decide

/-- The clauses at their boundaries: `PC` at 0xFFE (an illegal word, and a return that faults) and at 0xFFF. -/
theorem witness_StepFollowsTheAlgorithm :
    ({ State.reset with fault := latched .decodeFault 0 0 false 0 } : State).fault.valid = true ∧
    ({ State.reset with paused := true } : State).paused = true ∧
    0xFFE < ({ State.reset with pc := 0xFFF } : State).pc.toNat ∧
    (({ State.reset with pc := 0xFFE } : State).pc.toNat ≤ 0xFFE ∧
      decode ({ State.reset with pc := 0xFFE } : State).wordAtPc = none) ∧
    (let s := State.poke { State.reset with pc := 0xFFE } 0xFFE [0x00, 0xEE]
     s.fault.valid = false ∧ s.paused = false ∧ decode s.wordAtPc = some .ret ∧
       ∃ t, deliver .step s = .next t ∧ t.fault.valid = true) := by
  refine ⟨rfl, rfl, by decide, ⟨by decide, by decide⟩, rfl, rfl, by decide, _, rfl, rfl⟩

theorem witness_FetchIsBigEndianOrFaults :
    ({ State.reset with pc := 0xFFE } : State).pc.toNat ≤ 0xFFE ∧
    0xFFF < ({ State.reset with pc := 0x1000 } : State).pc.toNat ∧
    ({ State.reset with pc := 0xFFF } : State).pc.toNat = 0xFFF := by decide

theorem witness_reset_inv : State.reset.Inv :=
  ⟨rfl, by decide, fun k h => absurd h (Nat.not_lt_zero k.val), by decide, rfl⟩

theorem witness_InvariantKeptByEveryStep : State.reset.Inv ∧ ∃ t, step State.reset = .next t :=
  ⟨witness_reset_inv, _, rfl⟩

theorem witness_RegistersWrittenByTheTable :
    (∃ t, exec (.addReg 1 2) State.reset = .next t) ∧ ¬ writesReg (.addReg 1 2) 3 :=
  ⟨⟨_, rfl⟩, by unfold writesReg; decide⟩

theorem witness_PcLeftAsTheTableSays :
    (atWord 0x1234).Ready ∧ decode (atWord 0x1234).wordAtPc = some (.jp 0x234) ∧
    ∃ t, step (atWord 0x1234) = .next t ∧ t.fault.valid = false := by
  refine ⟨⟨rfl, rfl, rfl, ?_⟩, ?_, _, rfl, rfl⟩ <;> decide

theorem witness_SpecialStateHasItsWriters : ∃ t, exec (.ldDTVx 1) State.reset = .next t := ⟨_, rfl⟩

theorem witness_FaultStaysUntilReset :
    let s : State := { State.reset with fault := latched .stackOverflow 0x200 0x2200 false 0,
                                        agenda := [.tick, .load [1], .keyPress 3, .step] }
    s.fault.valid = true ∧ s.paused = false ∧ ∀ e ∈ s.agenda, e ≠ .reset := by decide

theorem witness_WaitLastsUntilKeyPressOrReset :
    let s : State := { State.reset with paused := true, keyDest := 4, agenda := [.tick, .load [1], .step] }
    s.fault.valid = false ∧ s.paused = true ∧ ∀ e ∈ s.agenda, e ≠ .reset ∧ ∀ k, e ≠ .keyPress k := by decide

theorem witness_CanonicalMemoryIsUnique :
    let m := Memory.write defaultFont (Memory.write defaultFont (Memory.write defaultFont [] 0x201 5) 0x200 1) 0x201 0
    Memory.wf defaultFont [(0x200, 1)] = true ∧ Memory.wf defaultFont m = true ∧
      ∀ a, Memory.read defaultFont [(0x200, 1)] a = Memory.read defaultFont m a :=
  ⟨by decide, by decide, fun _ => rfl⟩

/-- A full and an empty stack. -/
theorem witness_ReturnPopsOrUnderflows :
    0 < ({ State.reset with sp := 16 } : State).sp.val ∧ State.reset.sp.val = 0 := by decide

/-- The last free entry and a full stack; the first also for `ReturnUndoesCall`. -/
theorem witness_CallPushesOrOverflows :
    ({ State.reset with sp := 15 } : State).sp.val < 16 ∧ ({ State.reset with sp := 16 } : State).sp.val = 16 := by
  decide

theorem witness_ReturnUndoesCall : ({ State.reset with sp := 15 } : State).sp.val < 16 := by decide

/-- The least sum at which the next fetch faults, and a sum below it. -/
theorem witness_IndexedJumpAddsV0 :
    let s : State := { State.reset with v := regs [(0, 0xFF)] }
    (∃ t, exec (.jpV0 0xF00) s = .next t ∧ 0xFFE < t.pc.toNat) ∧
    (∃ t, exec (.jpV0 0xEFF) s = .next t ∧ ¬ 0xFFE < t.pc.toNat) :=
  ⟨⟨_, rfl, by decide⟩, ⟨_, rfl, by decide⟩⟩

theorem witness_SelfJumpChangesNothing : (atWord 0x1200).AtSelfJump ∧ (atWord 0x1200).agenda = [] :=
  ⟨⟨rfl, rfl, 0x200, rfl, by decide⟩, rfl⟩

/-- For `AddSetsCarry`, `SubtractionsSetGreater` and `ShiftsSetTheBitShiftedOut`. -/
theorem witness_flag_destination : (14 : Reg) ≠ flagReg := by decide

theorem witness_BcdStoresThreeDigits :
    State.reset.memWf = true ∧ ({ State.reset with i := 0xFFD } : State).i.toNat + 2 ≤ 0xFFF := by decide

/-- The last block that fits, for `StoreRegistersAscending`, `LoadRegistersAscending` and
`StoreThenLoadRoundTrip`. -/
theorem witness_StoreRegistersAscending :
    State.reset.memWf = true ∧ ({ State.reset with i := 0xFF0 } : State).i.toNat + (15 : Reg).val ≤ 0xFFF := by
  decide

theorem witness_FetchSeesTheStore :
    let s : State := { State.reset with i := 0xFFE, pc := 0xFFE }
    s.memWf = true ∧ s.i = s.pc ∧ s.pc.toNat + (1 : Reg).val ≤ 0xFFF ∧ 1 ≤ (1 : Reg).val := by decide

/-- No rows anywhere, and the last byte of memory. -/
theorem witness_DrawSendsTogglesAndSetsCollision :
    (0x0#4).toNat = 0 ∧ ({ State.reset with i := 0xFFF } : State).i.toNat + (0x1#4).toNat - 1 ≤ 0xFFF := by decide

theorem witness_EmptySpriteOnlyClearsFlag :
    (0x0#4).toNat = 0 ∧
    (let s : State := { State.reset with i := 0xFFE }
     s.i.toNat + (0x2#4).toNat ≤ 0x1000 ∧ ∀ r < (0x2#4).toNat, s.readByte (s.i.toNat + r) = 0) := by decide

theorem witness_DrawingTwiceRestoresTheScreen :
    ∀ e ∈ ((Screen.blank defaultScreenSize).run [.toggle 5 6, .toggle 69 7]).1, e = false := by decide

/-- The last key and the first number that is none. -/
theorem witness_KeySkips :
    ({ State.reset with v := regs [(4, 15)] } : State).v[(4 : Reg)].toNat ≤ 15 ∧
    15 < ({ State.reset with v := regs [(4, 16)] } : State).v[(4 : Reg)].toNat := by decide

theorem witness_KeyWaitAndKeyPress : State.reset.paused = false := rfl

theorem witness_TicksCountDownToZero :
    ({ State.reset with dt := 2, agenda := [.tick, .tick, .tick, .step] } : State).agenda
      = List.replicate 3 .tick ++ [.step] := by decide

theorem witness_ResetEventFromAnyState :
    ({ State.reset with pc := 0x300, agenda := [.reset, .step] } : State).agenda = .reset :: [.step] := rfl

/-- The largest program and the smallest that is refused. -/
theorem witness_LoadCopiesOrIsRefused :
    State.reset.memWf = true ∧ (List.replicate 3584 (0x12 : Byte)).length ≤ 3584 ∧
    3584 < (List.replicate 3585 (0x12 : Byte)).length := by
  rw [List.length_replicate, List.length_replicate]; decide

/-- The first clause with no further byte and with the largest program, and the second clause. -/
theorem witness_BootRunsTheFirstInstruction :
    (∀ more : List Byte, more = [] ∨ more = List.replicate 3582 0xAB → more.length ≤ 3582 ∧
      ({ State.reset with agenda := [.reset, .load (encodeBytes .cls ++ more)] } : State).agenda
        = [.reset, .load (encodeBytes .cls ++ more)]) ∧
    ({ State.reset with pc := 0x300, agenda := [.reset] } : State).agenda = [.reset] := by
  refine ⟨?_, rfl⟩
  rintro _ (rfl | rfl)
  · exact ⟨by decide, rfl⟩
  · exact ⟨by rw [List.length_replicate], rfl⟩

end Sys2Proof.Tests
end

section
/-! Decoding against the opcode map as data (spec/30_encoding.md R65, R66). A row test reads only the fields that
its mask keeps, and these are the keys of the dispatch of R64. So the word lies on the row of the instruction it
decodes to, and a word on a row decodes to an instruction of that row. Since `decode` has one answer, no word lies
on two rows. -/

namespace Sys2Proof

/-! ## A row test as an equation of fields, one for each mask of R66 -/

theorem covers_F000_iff (p w : Word) :
    OpcodeRow.covers ⟨0xF000#16, p⟩ w = true ↔
      (fieldT w).toNat = p.toNat / 4096 ∧ p.toNat % 4096 = 0 := by
  simp only [OpcodeRow.covers, beq_iff_eq, ← BitVec.toNat_inj, and_F000, fieldT_toNat]
  omega

theorem covers_F00F_iff (p w : Word) :
    OpcodeRow.covers ⟨0xF00F#16, p⟩ w = true ↔
      (fieldT w).toNat = p.toNat / 4096 ∧ (fieldN w).toNat = p.toNat % 4096 := by
  simp only [OpcodeRow.covers, beq_iff_eq, ← BitVec.toNat_inj, and_F00F, fieldT_toNat, fieldN_toNat]
  omega

theorem covers_F0FF_iff (p w : Word) :
    OpcodeRow.covers ⟨0xF0FF#16, p⟩ w = true ↔
      (fieldT w).toNat = p.toNat / 4096 ∧ (fieldKK w).toNat = p.toNat % 4096 := by
  simp only [OpcodeRow.covers, beq_iff_eq, ← BitVec.toNat_inj, and_F0FF, fieldT_toNat, fieldKK_toNat]
  omega

theorem covers_FFFF_iff (p w : Word) : OpcodeRow.covers ⟨0xFFFF#16, p⟩ w = true ↔ w = p := by
  rw [OpcodeRow.covers, beq_iff_eq, and_FFFF]

/-! ## A word lies on the row of the instruction it decodes to -/

theorem row_covers_of_decode0 {w : Word} {i : Instr} (h : decode0 w = some i) : i.row.covers w = true := by
  unfold decode0 at h
  split at h
  case isTrue hw => cases h; exact (covers_FFFF_iff _ _).2 hw
  case isFalse =>
    split at h
    case isTrue hw => cases h; exact (covers_FFFF_iff _ _).2 hw
    case isFalse => cases h

theorem row_covers_of_decode8 {w : Word} {i : Instr} (hT : (fieldT w).toNat = 0x8)
    (h : decode8 w = some i) : i.row.covers w = true := by
  unfold decode8 at h
  split at h
  case h_10 => cases h
  all_goals
    next hN => cases h; exact (covers_F00F_iff _ _).2 ⟨hT, hN⟩

theorem row_covers_of_decodeE {w : Word} {i : Instr} (hT : (fieldT w).toNat = 0xE)
    (h : decodeE w = some i) : i.row.covers w = true := by
  unfold decodeE at h
  split at h
  case h_3 => cases h
  all_goals
    next hK => cases h; exact (covers_F0FF_iff _ _).2 ⟨hT, hK⟩

theorem row_covers_of_decodeF {w : Word} {i : Instr} (hT : (fieldT w).toNat = 0xF)
    (h : decodeF w = some i) : i.row.covers w = true := by
  unfold decodeF at h
  split at h
  case h_10 => cases h
  all_goals
    next hK => cases h; exact (covers_F0FF_iff _ _).2 ⟨hT, hK⟩

theorem row_covers_of_decode {w : Word} {i : Instr} (h : decode w = some i) : i.row.covers w = true := by
  unfold decode at h
  split at h
  -- Groups 0, 8, E and F dispatch further.
  case h_1 => exact row_covers_of_decode0 h
  case h_9 hT => exact row_covers_of_decode8 hT h
  case h_15 hT => exact row_covers_of_decodeE hT h
  case h_16 hT => exact row_covers_of_decodeF hT h
  case h_17 => cases h
  -- Groups 5 and 9 fix the low nibble at 0 (R69).
  case h_6 hT | h_10 hT =>
    split at h
    case isTrue hN => cases h; exact (covers_F00F_iff _ _).2 ⟨hT, congrArg BitVec.toNat hN⟩
    case isFalse => cases h
  -- In every other group the top nibble alone decides.
  all_goals
    next hT => cases h; exact (covers_F000_iff _ _).2 ⟨hT, rfl⟩

/-! ## A word on a row decodes to an instruction of that row -/

/-- The operands may differ from those of `i`: the row fixes the constructor only. -/
theorem exists_decode_of_row_covers {w : Word} {i : Instr} (h : i.row.covers w = true) :
    ∃ j, decode w = some j ∧ j.row = i.row := by
  cases i with
  | cls | ret =>
    obtain rfl := (covers_FFFF_iff _ _).1 h
    exact ⟨_, rfl, rfl⟩
  | jp | call | seByte | sneByte | ldByte | addByte | ldI | jpV0 | rnd | drw =>
    obtain ⟨hT, -⟩ := (covers_F000_iff _ _).1 h
    simp [decode, hT, Instr.row]
  | seReg | sneReg =>
    obtain ⟨hT, hN⟩ := (covers_F00F_iff _ _).1 h
    have hN0 : fieldN w = 0 := BitVec.eq_of_toNat_eq hN
    simp [decode, hT, hN0, Instr.row]
  | ldReg | orReg | andReg | xorReg | addReg | subReg | shr | subnReg | shl =>
    obtain ⟨hT, hN⟩ := (covers_F00F_iff _ _).1 h
    simp [decode, decode8, hT, hN, Instr.row]
  | skp | sknp =>
    obtain ⟨hT, hK⟩ := (covers_F0FF_iff _ _).1 h
    simp [decode, decodeE, hT, hK, Instr.row]
  | ldVxDT | ldVxK | ldDTVx | ldSTVx | addI | ldF | ldB | storeRegs | loadRegs =>
    obtain ⟨hT, hK⟩ := (covers_F0FF_iff _ _).1 h
    simp [decode, decodeF, hT, hK, Instr.row]

/-! ## The map -/

theorem row_mem_opcodeRows (i : Instr) : i.row ∈ opcodeRows := by
  cases i <;> simp [opcodeRows, rowExamples, Instr.row]

theorem opcodeRows_nodup : opcodeRows.Nodup := by decide

/-- A row of the map that covers a word is the row of the instruction the word decodes to. -/
theorem exists_decode_of_covers {w : Word} {r : OpcodeRow} (hr : r ∈ opcodeRows) (h : r.covers w = true) :
    ∃ j, decode w = some j ∧ j.row = r := by
  obtain ⟨i, -, rfl⟩ := List.mem_map.1 hr
  exact exists_decode_of_row_covers h

/-- Settles O3: the map covers a word just when `decode` answers, and the one row that covers it is the row of that
answer. -/
theorem everyWordMatchesOneRowOrNone : Obligations.EveryWordMatchesOneRowOrNone := by
  unfold Obligations.EveryWordMatchesOneRowOrNone
  refine ⟨rfl, opcodeRows_nodup, fun w => ?_⟩
  cases hd : decode w with
  | none =>
    refine .inl ⟨rfl, fun r hr => Bool.eq_false_iff.2 fun hc => ?_⟩
    obtain ⟨j, hj, -⟩ := exists_decode_of_covers hr hc
    simp [hd] at hj
  | some i =>
    refine .inr ⟨i, rfl, row_mem_opcodeRows i, fun r hr => ⟨fun hc => ?_, ?_⟩⟩
    · obtain ⟨j, hj, hrow⟩ := exists_decode_of_covers hr hc
      obtain rfl : i = j := Option.some.inj (hd.symm.trans hj)
      exact hrow.symm
    · rintro rfl
      exact row_covers_of_decode hd

end Sys2Proof
end

section
/-! Jumps and skips (spec/40_control_flow.md R82, R84 to R88). Each of these instructions completes and moves `PC`
alone: a jump sets it, a skip adds 2 to it when its condition holds. -/

namespace Sys2Proof.Machine

/-! ## What the two moves of `PC` leave unchanged -/

theorem State.onlyPc_setPc (s : State) (p : Word) : OnlyPc s (s.setPc p) := ⟨rfl, fun _ => rfl⟩

theorem State.onlyPc_skipIf (s : State) (c : Bool) : OnlyPc s (s.skipIf c) := by
  cases c with
  | false => exact ⟨rfl, fun _ => rfl⟩
  | true => exact s.onlyPc_setPc _

/-! ## The value of a jump target -/

@[simp] theorem addrImm_toNat (nnn : BitVec 12) : (addrImm nnn).toNat = nnn.toNat :=
  BitVec.toNat_setWidth_of_le (by decide)

@[simp] theorem zext16_toNat (b : Byte) : (zext16 b).toNat = b.toNat :=
  BitVec.toNat_setWidth_of_le (by decide)

/-- The sum is at most 0xFFF + 0xFF, so 16 bits hold it and nothing is reduced (R88). -/
theorem addrImm_add_zext16_toNat (nnn : BitVec 12) (b : Byte) :
    (addrImm nnn + zext16 b).toNat = nnn.toNat + b.toNat := by
  have hn := nnn.isLt
  have hb := b.isLt
  rw [BitVec.toNat_add, addrImm_toNat, zext16_toNat]
  omega

/-! ## Each instruction as a move of `PC` -/

section
variable (s : State) (nnn : BitVec 12) (x y : Reg) (kk : Byte)

theorem exec_jp : exec (.jp nnn) s = .next (s.setPc (addrImm nnn)) := rfl

theorem exec_jpV0 : exec (.jpV0 nnn) s = .next (s.setPc (addrImm nnn + zext16 s.v[(0 : Reg)])) := rfl

theorem exec_seByte : exec (.seByte x kk) s = .next (s.skipIf (s.v[x] == kk)) := rfl

theorem exec_sneByte : exec (.sneByte x kk) s = .next (s.skipIf (s.v[x] != kk)) := rfl

theorem exec_seReg : exec (.seReg x y) s = .next (s.skipIf (s.v[x] == s.v[y])) := rfl

theorem exec_sneReg : exec (.sneReg x y) s = .next (s.skipIf (s.v[x] != s.v[y])) := rfl

end

/-! ## The two skip conditions -/

theorem State.skipIf_beq_pc (s : State) (a b : Byte) :
    (s.skipIf (a == b)).pc = if a = b then s.pc + 2 else s.pc := by
  simp only [skipIf_pc, beq_iff_eq]

theorem State.skipIf_bne_pc (s : State) (a b : Byte) :
    (s.skipIf (a != b)).pc = if a = b then s.pc else s.pc + 2 := by
  simp only [skipIf_pc, bne_iff_ne, ite_not]

end Sys2Proof.Machine

namespace Sys2Proof
open Machine

/-- Settles O21: the target is the zero-extended immediate. -/
theorem jumpSetsPc : Obligations.JumpSetsPc := by
  unfold Obligations.JumpSetsPc
  intro s nnn
  exact ⟨_, exec_jp s nnn, addrImm_toNat nnn, s.onlyPc_setPc _⟩

/-- Settles O24: each skip is `skipIf` on its comparison with the byte. -/
theorem skipsOnByte : Obligations.SkipsOnByte := by
  unfold Obligations.SkipsOnByte
  intro s x kk
  exact ⟨⟨_, exec_seByte s x kk, s.skipIf_beq_pc _ _, s.onlyPc_skipIf _⟩,
    ⟨_, exec_sneByte s x kk, s.skipIf_bne_pc _ _, s.onlyPc_skipIf _⟩⟩

/-- Settles O25: each skip is `skipIf` on its comparison of the two registers, and a register equals itself. -/
theorem skipsOnRegister : Obligations.SkipsOnRegister := by
  unfold Obligations.SkipsOnRegister
  intro s x y
  refine ⟨⟨_, exec_seReg s x y, s.skipIf_beq_pc _ _, s.onlyPc_skipIf _⟩,
    ⟨_, exec_sneReg s x y, s.skipIf_bne_pc _ _, s.onlyPc_skipIf _⟩, ?_⟩
  rintro rfl
  constructor
  · rw [exec_seReg, beq_self_eq_true]; rfl
  · rw [exec_sneReg, bne_self_eq_false]; rfl

/-- Settles O26: the target is the unreduced sum, and a fetch from above 0xFFE is the fetch fault of R45. -/
theorem indexedJumpAddsV0 : Obligations.IndexedJumpAddsV0 := by
  unfold Obligations.IndexedJumpAddsV0
  intro s nnn
  exact ⟨_, exec_jpV0 s nnn, addrImm_add_zext16_toNat nnn _, s.onlyPc_setPc _, fetch_error⟩

end Sys2Proof
end

section
/-! The loads and the flagless add (spec/41_register_alu.md R101 to R103). Each of these instructions completes and
is one register write, `setV` on its destination. -/

namespace Sys2Proof.Machine

/-! ## What a register write does and leaves unchanged -/

theorem State.setV_get_same (s : State) (r : Reg) (x : Byte) : (s.setV r x).v[r] = x := by
  rw [setV_get, if_pos rfl]

theorem State.onlyRegs_setV (s : State) (r : Reg) (x : Byte) : OnlyRegs (· = r) s (s.setV r x) :=
  ⟨rfl, fun q hq => by rw [setV_get, if_neg hq], fun _ => rfl⟩

/-! ## Each instruction as a register write -/

section
variable (s : State) (x y : Reg) (kk : Byte)

theorem exec_ldByte : exec (.ldByte x kk) s = .next (s.setV x kk) := rfl

theorem exec_addByte : exec (.addByte x kk) s = .next (s.setV x (s.v[x] + kk)) := rfl

theorem exec_ldReg : exec (.ldReg x y) s = .next (s.setV x s.v[y]) := rfl

end

end Sys2Proof.Machine

namespace Sys2Proof
open Machine

/-- Settles O28: each instruction is one `setV`, and a byte addition is the sum modulo 256. -/
theorem loadsAndImmediateAdd : Obligations.LoadsAndImmediateAdd := by
  unfold Obligations.LoadsAndImmediateAdd
  intro s x y kk
  have addByte_value : (s.setV x (s.v[x] + kk)).v[x].toNat = (s.v[x].toNat + kk.toNat) % 256 := by
    rw [State.setV_get_same, BitVec.toNat_add]
  exact ⟨⟨_, exec_ldByte s x kk, s.setV_get_same x _, s.onlyRegs_setV x _⟩,
    ⟨_, exec_addByte s x kk, addByte_value, s.onlyRegs_setV x _⟩,
    ⟨_, exec_ldReg s x y, s.setV_get_same x _, s.onlyRegs_setV x _⟩⟩

end Sys2Proof
end

section
/-! The load of the index register (spec/42_index_memory.md R121): it completes and is one write of `I`. -/

namespace Sys2Proof.Machine

theorem State.eq_setI_frame (s : State) (a : Word) : s.setI a = { s with i := (s.setI a).i } := rfl

theorem State.sameBytes_setI (s : State) (a : Word) : SameBytes s (s.setI a) :=
  fun n => congrFun (s.setI_readByte a) n

theorem exec_ldI (s : State) (nnn : BitVec 12) : exec (.ldI nnn) s = .next (s.setI (addrImm nnn)) := rfl

end Sys2Proof.Machine

namespace Sys2Proof
open Machine

/-- Settles O34: `I` becomes the zero-extended immediate, and a write of `I` reaches no other field and no byte. -/
theorem loadIndexImmediate : Obligations.LoadIndexImmediate := by
  unfold Obligations.LoadIndexImmediate
  intro s nnn
  exact ⟨_, exec_ldI s nnn, addrImm_toNat nnn, s.eq_setI_frame _, s.sameBytes_setI _⟩

end Sys2Proof
end

section
/-! The timer moves (spec/44_timers.md R160 to R162). Each of these instructions completes and is one write: `setV`
for the read of `DT`, `setDt` and `setSt` for the two writes of a timer. -/

namespace Sys2Proof.Machine

/-! ## What the writes of a timer leave unchanged -/

theorem State.eq_setDt_frame (s : State) (b : Byte) : s.setDt b = { s with dt := (s.setDt b).dt } := rfl

theorem State.eq_setSt_frame (s : State) (b : Byte) : s.setSt b = { s with st := (s.setSt b).st } := rfl

theorem State.sameBytes_setDt (s : State) (b : Byte) : SameBytes s (s.setDt b) :=
  fun a => congrFun (s.setDt_readByte b) a

theorem State.sameBytes_setSt (s : State) (b : Byte) : SameBytes s (s.setSt b) :=
  fun a => congrFun (s.setSt_readByte b) a

/-! ## The tone output -/

theorem State.toneOn_iff (s : State) : s.toneOn = true ↔ 0 < s.st.toNat := decide_eq_true_iff

theorem State.setSt_toneOn_iff (s : State) (b : Byte) : (s.setSt b).toneOn = true ↔ 0 < b.toNat := by
  rw [toneOn_iff, setSt_st]

/-! ## Each instruction as a write -/

section
variable (s : State) (x : Reg)

theorem exec_ldVxDT : exec (.ldVxDT x) s = .next (s.setV x s.dt) := rfl

theorem exec_ldDTVx : exec (.ldDTVx x) s = .next (s.setDt s.v[x]) := rfl

theorem exec_ldSTVx : exec (.ldSTVx x) s = .next (s.setSt s.v[x]) := rfl

end

end Sys2Proof.Machine

namespace Sys2Proof
open Machine

/-- Settles O47: each instruction is one write, and `tone_on` is read off the value written to `ST`. -/
theorem timerMoves : Obligations.TimerMoves := by
  unfold Obligations.TimerMoves
  intro s x
  exact ⟨⟨_, exec_ldVxDT s x, s.setV_get_same x _, s.onlyRegs_setV x _⟩,
    ⟨_, exec_ldDTVx s x, s.setDt_dt _, s.eq_setDt_frame _, s.sameBytes_setDt _⟩,
    ⟨_, exec_ldSTVx s x, s.setSt_st _, s.eq_setSt_frame _, s.sameBytes_setSt _, s.setSt_toneOn_iff _⟩⟩

end Sys2Proof
end

section
/-! Call and return (spec/40_control_flow.md R81, R83; the faults R202, R203 of spec/60_exceptions.md). Each is one
stack operation and a jump, or the latched fault where the stack operation has nothing to answer. -/

namespace Sys2Proof.Machine

/-! ## The fault entry changes the record alone (R206, R207) -/

theorem State.onlyFault_raise (s : State) (c : FaultCause) (op : Word) (m : Nat) :
    OnlyFault s (s.raise c op m) := ⟨rfl, fun a => congrFun (s.raise_readByte c op m) a⟩

/-! ## Each instruction by the answer of its stack operation -/

section
variable {s t : State} {target : Word} (nnn : BitVec 12)

theorem exec_ret_of_pop (h : s.pop = some (target, t)) : exec .ret s = .next (t.setPc target) := by
  change execRet s = _
  rw [execRet, h]

theorem exec_ret_of_pop_none (h : s.pop = none) :
    exec .ret s = .next (s.raise .stackUnderflow (encode .ret) 0) := by
  change execRet s = _
  rw [execRet, h]

theorem exec_call_of_push (h : s.push s.pc = some t) :
    exec (.call nnn) s = .next (t.setPc (addrImm nnn)) := by
  change execCall nnn s = _
  rw [execCall, h]

theorem exec_call_of_push_none (h : s.push s.pc = none) :
    exec (.call nnn) s = .next (s.raise .stackOverflow (encode (.call nnn)) 0) := by
  change execCall nnn s = _
  rw [execCall, h]

end

end Sys2Proof.Machine

namespace Sys2Proof
open Machine

/-- Settles O20: by the answer of `pop`, which fails just when the stack is empty. -/
theorem returnPopsOrUnderflows : Obligations.ReturnPopsOrUnderflows := by
  unfold Obligations.ReturnPopsOrUnderflows
  refine fun s => ⟨fun h => ?held, fun h => ?empty⟩
  case held => exact ⟨_, exec_ret_of_pop (State.pop_eq h), rfl, rfl, rfl, fun _ => rfl⟩
  case empty => exact ⟨_, exec_ret_of_pop_none (State.pop_empty h), s.onlyFault_raise _ _ _, rfl, rfl⟩

/-- Settles O22: by the answer of `push`, which writes one entry and fails just when 16 are held. -/
theorem callPushesOrOverflows : Obligations.CallPushesOrOverflows := by
  unfold Obligations.CallPushesOrOverflows
  refine fun s nnn => ⟨fun h => ?room, fun h => ?full⟩
  case room =>
    have pushed : (s.stack.set s.sp.val s.pc)[s.sp.val] = s.pc := Vector.getElem_set_self h
    have others (k : Fin 16) (hk : k.val ≠ s.sp.val) : (s.stack.set s.sp.val s.pc)[k] = s.stack[k] :=
      Vector.getElem_set_ne h k.isLt hk.symm
    exact ⟨_, exec_call_of_push nnn (State.push_eq _ h), rfl, pushed, others, addrImm_toNat nnn, rfl, fun _ => rfl⟩
  case full => exact ⟨_, exec_call_of_push_none nnn (State.push_full _ h), s.onlyFault_raise _ _ _, rfl, rfl⟩

end Sys2Proof
end

section
/-! Decoding and encoding undo each other (spec/30_encoding.md R62, R64, R66), and the illegal words by group (R67).
A format rebuilds a word from its fields, so a word is the encoding of what its group's dispatch answers. -/

namespace Sys2Proof

/-! ## An encoded instruction decodes to itself -/

theorem decode_encode (i : Instr) : decode (encode i) = some i := by
  cases i with
  | cls | ret => decide
  | jp | call | ldI | jpV0 => simp [encode, decode]
  | seByte | sneByte | ldByte | addByte | rnd => simp [encode, decode]
  | seReg | sneReg | drw => simp [encode, decode]
  | ldReg | orReg | andReg | xorReg | addReg | subReg | shr | subnReg | shl => simp [encode, decode, decode8]
  | skp | sknp => simp [encode, decode, decodeE]
  | ldVxDT | ldVxK | ldDTVx | ldSTVx | addI | ldF | ldB | storeRegs | loadRegs => simp [encode, decode, decodeF]

theorem decodeBytes_encodeBytes (i : Instr) (rest : List Byte) :
    decodeBytes (encodeBytes i ++ rest) = .ok (i, rest) := by
  simp [encodeBytes, decodeBytes, wordOfBytes_bytes, decode_encode]

/-! ## A word of a group is its format applied to its fields -/

section
variable {w : Word} {t n : BitVec 4} {kk : Byte}

theorem formNNN_of_fieldT (hT : (fieldT w).toNat = t.toNat) : formNNN t (fieldNNN w) = w := by
  rw [← BitVec.eq_of_toNat_eq hT, formNNN_fields]

theorem formXKK_of_fieldT (hT : (fieldT w).toNat = t.toNat) : formXKK t (fieldX w) (fieldKK w) = w := by
  rw [← BitVec.eq_of_toNat_eq hT, formXKK_fields]

theorem formXYN_of_fieldT (hT : (fieldT w).toNat = t.toNat) :
    formXYN t (fieldX w) (fieldY w) (fieldN w) = w := by
  rw [← BitVec.eq_of_toNat_eq hT, formXYN_fields]

theorem formXKK_of_fieldT_fieldKK (hT : (fieldT w).toNat = t.toNat) (hK : (fieldKK w).toNat = kk.toNat) :
    formXKK t (fieldX w) kk = w := by
  rw [← BitVec.eq_of_toNat_eq hK, formXKK_of_fieldT hT]

theorem formXYN_of_fieldT_fieldN (hT : (fieldT w).toNat = t.toNat) (hN : (fieldN w).toNat = n.toNat) :
    formXYN t (fieldX w) (fieldY w) n = w := by
  rw [← BitVec.eq_of_toNat_eq hN, formXYN_of_fieldT hT]

end

/-! ## A decoded word is the encoding of the answer -/

section
variable {w : Word} {i : Instr}

theorem encode_of_decode0 (h : decode0 w = some i) : encode i = w := by
  unfold decode0 at h
  split at h
  case isTrue hw => cases h; exact hw.symm
  case isFalse =>
    split at h
    case isTrue hw => cases h; exact hw.symm
    case isFalse => cases h

theorem encode_of_decode8 (hT : (fieldT w).toNat = 0x8) (h : decode8 w = some i) : encode i = w := by
  unfold decode8 at h
  split at h
  case h_10 => cases h
  all_goals
    next hN => cases h; exact formXYN_of_fieldT_fieldN hT hN

theorem encode_of_decodeE (hT : (fieldT w).toNat = 0xE) (h : decodeE w = some i) : encode i = w := by
  unfold decodeE at h
  split at h
  case h_3 => cases h
  all_goals
    next hK => cases h; exact formXKK_of_fieldT_fieldKK hT hK

theorem encode_of_decodeF (hT : (fieldT w).toNat = 0xF) (h : decodeF w = some i) : encode i = w := by
  unfold decodeF at h
  split at h
  case h_10 => cases h
  all_goals
    next hK => cases h; exact formXKK_of_fieldT_fieldKK hT hK

theorem encode_of_decode (h : decode w = some i) : encode i = w := by
  unfold decode at h
  split at h
  -- Groups 0, 8, E and F dispatch further.
  case h_1 => exact encode_of_decode0 h
  case h_9 hT => exact encode_of_decode8 hT h
  case h_15 hT => exact encode_of_decodeE hT h
  case h_16 hT => exact encode_of_decodeF hT h
  case h_17 => cases h
  -- Groups 5 and 9 fix the low nibble at 0 (R69).
  case h_6 hT | h_10 hT =>
    split at h
    case isTrue hN => cases h; exact formXYN_of_fieldT_fieldN hT (congrArg BitVec.toNat hN)
    case isFalse => cases h
  -- The other groups are one instruction each, of one of the three formats.
  case h_2 hT | h_3 hT | h_11 hT | h_12 hT => cases h; exact formNNN_of_fieldT hT
  case h_4 hT | h_5 hT | h_7 hT | h_8 hT | h_13 hT => cases h; exact formXKK_of_fieldT hT
  case h_14 hT => cases h; exact formXYN_of_fieldT hT

end

/-! ## Which words of a group are illegal -/

section
variable {w : Word}

theorem decode0_eq_none_iff : decode0 w = none ↔ w ≠ 0x00E0 ∧ w ≠ 0x00EE := by
  unfold decode0
  split
  case isTrue hw => simp [hw]
  case isFalse hw => simp [hw]

theorem decode8_eq_none_iff : decode8 w = none ↔ fieldN w ∈ [0x8, 0x9, 0xA, 0xB, 0xC, 0xD, 0xF] := by
  have hlt := (fieldN w).isLt
  unfold decode8
  simp only [List.mem_cons, List.not_mem_nil, or_false, ← BitVec.toNat_inj, BitVec.reduceToNat]
  split
  case h_10 => simp only [imp_false] at *; simp only [true_iff]; omega
  all_goals next hN => simp [hN]

theorem decodeE_eq_none_iff : decodeE w = none ↔ fieldKK w ∉ [0x9E, 0xA1] := by
  unfold decodeE
  simp only [List.mem_cons, List.not_mem_nil, or_false, ← BitVec.toNat_inj, BitVec.reduceToNat]
  split
  case h_3 => simp only [imp_false] at *; simp [*]
  all_goals next hK => simp [hK]

theorem decodeF_eq_none_iff :
    decodeF w = none ↔ fieldKK w ∉ [0x07, 0x0A, 0x15, 0x18, 0x1E, 0x29, 0x33, 0x55, 0x65] := by
  unfold decodeF
  simp only [List.mem_cons, List.not_mem_nil, or_false, ← BitVec.toNat_inj, BitVec.reduceToNat]
  split
  case h_10 => simp only [imp_false] at *; simp [*]
  all_goals next hK => simp [hK]

end

/-! ## The obligations -/

/-- Settles O1: each constructor's format gives back its key and its operands. -/
theorem decodeOfEncode : Obligations.DecodeOfEncode := by
  unfold Obligations.DecodeOfEncode
  exact ⟨decode_encode, decodeBytes_encodeBytes⟩

/-- Settles O2: along the dispatch, each answer's format is applied to the fields of the word. -/
theorem encodeOfDecode : Obligations.EncodeOfDecode := by
  unfold Obligations.EncodeOfDecode
  exact fun _ _ => encode_of_decode

/-- Settles O4: all 16 top nibbles have an arm, so a word is illegal only by the rule of its own group. -/
theorem illegalWordsByGroup : Obligations.IllegalWordsByGroup := by
  unfold Obligations.IllegalWordsByGroup
  intro w
  rw [← decode0_eq_none_iff, ← decode8_eq_none_iff, ← decodeE_eq_none_iff, ← decodeF_eq_none_iff]
  have hlt := (fieldT w).isLt
  unfold decode
  simp only [← BitVec.toNat_inj (x := fieldT w), BitVec.reduceToNat]
  split
  case h_17 => simp only [imp_false] at *; omega
  all_goals next hT => simp [hT]

/-- Settles O5: the words are closed, so the decoder runs on them. -/
theorem sampleWordsDecode : Obligations.SampleWordsDecode := by
  unfold Obligations.SampleWordsDecode
  decide

end Sys2Proof
end

section
/-! The execute phase, said once (spec/60_exceptions.md R200, R206). In every state an instruction either meets its
fault condition and latches the record, or completes. `completed` is the state a completed instruction leaves, and
`exec_of_faultOf_none` and `exec_of_faultOf_some` tie it to `exec`. The rules about all instructions are read off its
frame `WritesOnly`, which names the fields each instruction may write. -/

namespace Sys2Proof.Machine

/-! ## The state a completed instruction leaves -/

/-- What `exec` answers when the instruction's fault condition does not hold. -/
def completed (i : Instr) (s : State) : State :=
  match i with
  | .cls => s.emit .clear
  | .ret => match s.pop with
    | some (target, t) => t.setPc target
    | none => s
  | .jp nnn => s.setPc (addrImm nnn)
  | .call nnn => match s.push s.pc with
    | some t => t.setPc (addrImm nnn)
    | none => s
  | .seByte x kk => s.skipIf (s.v[x] == kk)
  | .sneByte x kk => s.skipIf (s.v[x] != kk)
  | .seReg x y => s.skipIf (s.v[x] == s.v[y])
  | .ldByte x kk => s.setV x kk
  | .addByte x kk => s.setV x (s.v[x] + kk)
  | .ldReg x y => s.setV x s.v[y]
  | .orReg x y => s.setV x (s.v[x] ||| s.v[y])
  | .andReg x y => s.setV x (s.v[x] &&& s.v[y])
  | .xorReg x y => s.setV x (s.v[x] ^^^ s.v[y])
  | .addReg x y => s.setFlagResult x (carryFlag s.v[x] s.v[y]) (s.v[x] + s.v[y])
  | .subReg x y => s.setFlagResult x (greaterFlag s.v[x] s.v[y]) (s.v[x] - s.v[y])
  | .shr x _ => s.setFlagResult x (lsbFlag s.v[x]) (s.v[x] >>> 1)
  | .subnReg x y => s.setFlagResult x (greaterFlag s.v[y] s.v[x]) (s.v[y] - s.v[x])
  | .shl x _ => s.setFlagResult x (msbFlag s.v[x]) (s.v[x] <<< 1)
  | .sneReg x y => s.skipIf (s.v[x] != s.v[y])
  | .ldI nnn => s.setI (addrImm nnn)
  | .jpV0 nnn => s.setPc (addrImm nnn + zext16 s.v[(0 : Reg)])
  | .rnd x kk => s.drawRnd.2.setV x (s.drawRnd.1 &&& kk)
  | .drw x y n =>
      (s.togglePixels (s.drawPoints x y n)).2.setV flagReg (collisionFlag (s.togglePixels (s.drawPoints x y n)).1)
  | .skp x => (s.keyHeld s.v[x]).2.skipIf (s.keyHeld s.v[x]).1
  | .sknp x => (s.keyHeld s.v[x]).2.skipIf !(s.keyHeld s.v[x]).1
  | .ldVxDT x => s.setV x s.dt
  | .ldVxK x => s.pauseFor x
  | .ldDTVx x => s.setDt s.v[x]
  | .ldSTVx x => s.setSt s.v[x]
  | .addI x => s.setI (s.i + zext16 s.v[x])
  | .ldF x => s.setI (glyphAddr s.v[x])
  | .ldB x => s.storeBytes s.base (bcdDigits s.v[x])
  | .storeRegs x => s.storeBytes s.base (s.regsTo x)
  | .loadRegs x => s.loadV x s.base

section
variable {s t : State} {i : Instr} {x y : Reg} {n : BitVec 4} {nnn : BitVec 12} {c : FaultCause} {m : Nat}

theorem completed_ret {target : Word} (h : s.pop = some (target, t)) : completed .ret s = t.setPc target := by
  simp [completed, h]

theorem completed_call (h : s.push s.pc = some t) : completed (.call nnn) s = t.setPc (addrImm nnn) := by
  simp [completed, h]

/-! ## The fault conditions, for the instructions that have one -/

theorem faultOf_ret_eq_none : faultOf .ret s = none ↔ 0 < s.sp.val := by
  simp [faultOf, Nat.pos_iff_ne_zero]

theorem faultOf_ret_eq_some : faultOf .ret s = some (c, m) ↔ s.sp.val = 0 ∧ c = .stackUnderflow ∧ m = 0 := by
  simp [faultOf, eq_comm]

theorem faultOf_call_eq_none : faultOf (.call nnn) s = none ↔ s.sp.val < 16 := by
  have := s.sp.isLt
  simp only [faultOf, ite_eq_right_iff, reduceCtorEq, imp_false]; omega

theorem faultOf_call_eq_some :
    faultOf (.call nnn) s = some (c, m) ↔ s.sp.val = 16 ∧ c = .stackOverflow ∧ m = 0 := by
  simp [faultOf, eq_comm]

/-- The range check of R48 as a fault condition: the memory fault with the lowest missing address (R127). -/
def rangeFaultOf (base len : Nat) : Option (FaultCause × Nat) := (rangeFault base len).map (.memoryFault, ·)

theorem rangeFaultOf_eq_ite {base len : Nat} : rangeFaultOf base len =
    if 0 < len ∧ 0xFFF < base + len - 1 then some (.memoryFault, max base 0x1000) else none := by
  unfold rangeFaultOf rangeFault
  split <;> rfl

theorem rangeFaultOf_eq_none {base len : Nat} : rangeFaultOf base len = none ↔ (len = 0 ∨ base + len ≤ 4096) :=
  Option.map_eq_none_iff.trans rangeFault_eq_none

/-- The condition of R143 is that range check, and so are those of R124 to R126. -/
theorem faultOf_drw : faultOf (.drw x y n) s = rangeFaultOf s.base n.toNat := rangeFaultOf_eq_ite.symm

theorem faultOf_ldB : faultOf (.ldB x) s = rangeFaultOf s.base 3 := by
  simp [faultOf, rangeFaultOf_eq_ite, State.base]

theorem faultOf_storeRegs : faultOf (.storeRegs x) s = rangeFaultOf s.base (x.val + 1) := by
  simp [faultOf, rangeFaultOf_eq_ite, State.base]

theorem faultOf_loadRegs : faultOf (.loadRegs x) s = rangeFaultOf s.base (x.val + 1) := by
  simp [faultOf, rangeFaultOf_eq_ite, State.base]

/-! ## The execute phase either completes or latches the fault -/

theorem withRange_of_none {base len : Nat} {ok : State} (h : rangeFaultOf base len = none) :
    withRange base len i s ok = .next ok :=
  withRange_ok (rangeFaultOf_eq_none.1 h)

theorem withRange_of_some {base len : Nat} {ok : State} (h : rangeFaultOf base len = some (c, m)) :
    withRange base len i s ok = .next (s.raise c (encode i) m) := by
  obtain ⟨a, ha, hcm⟩ := Option.map_eq_some_iff.1 h
  obtain ⟨rfl, rfl⟩ := Prod.mk.inj hcm
  simp [withRange, ha]

theorem exec_of_faultOf_none (h : faultOf i s = none) : exec i s = .next (completed i s) := by
  cases i with
  | ret =>
    have hpop := State.pop_eq (faultOf_ret_eq_none.1 h)
    rw [exec_ret_of_pop hpop, completed_ret hpop]
  | call nnn =>
    have hpush := State.push_eq s.pc (faultOf_call_eq_none.1 h)
    rw [exec_call_of_push nnn hpush, completed_call hpush]
  | drw x y n => exact withRange_of_none (faultOf_drw.symm.trans h)
  | ldB x => exact withRange_of_none (faultOf_ldB.symm.trans h)
  | storeRegs x => exact withRange_of_none (faultOf_storeRegs.symm.trans h)
  | loadRegs x => exact withRange_of_none (faultOf_loadRegs.symm.trans h)
  | _ => rfl

theorem exec_of_faultOf_some (h : faultOf i s = some (c, m)) : exec i s = .next (s.raise c (encode i) m) := by
  cases i with
  | ret =>
    obtain ⟨hsp, rfl, rfl⟩ := faultOf_ret_eq_some.1 h
    exact exec_ret_of_pop_none (State.pop_empty hsp)
  | call nnn =>
    obtain ⟨hsp, rfl, rfl⟩ := faultOf_call_eq_some.1 h
    exact exec_call_of_push_none nnn (State.push_full _ hsp)
  | drw x y n => exact withRange_of_some (faultOf_drw.symm.trans h)
  | ldB x => exact withRange_of_some (faultOf_ldB.symm.trans h)
  | storeRegs x => exact withRange_of_some (faultOf_storeRegs.symm.trans h)
  | loadRegs x => exact withRange_of_some (faultOf_loadRegs.symm.trans h)
  | _ => cases h

/-- Everything an instruction can do. -/
theorem exec_cases (h : exec i s = .next t) :
    (∃ c m, faultOf i s = some (c, m) ∧ t = s.raise c (encode i) m) ∨ (faultOf i s = none ∧ t = completed i s) := by
  cases hf : faultOf i s with
  | none =>
    rw [exec_of_faultOf_none hf] at h
    cases h
    exact .inr ⟨rfl, rfl⟩
  | some p =>
    obtain ⟨c, m⟩ := p
    rw [exec_of_faultOf_some hf] at h
    cases h
    exact .inl ⟨c, m, rfl, rfl⟩

theorem exec_total (i : Instr) (s : State) : ∃ t, exec i s = .next t := by
  cases hf : faultOf i s with
  | none => exact ⟨_, exec_of_faultOf_none hf⟩
  | some p => exact ⟨_, exec_of_faultOf_some hf⟩

end

/-! ## The fields each instruction may write -/

/-- `t` is `s` but for the fields that the instruction writes when it completes (R12, R16 to R25, R177, R179). -/
def WritesOnly (i : Instr) (s t : State) : Prop :=
  match i with
  | .cls => t = { s with out := t.out }
  | .ret => t = { s with pc := t.pc, sp := t.sp }
  | .call _ => t = { s with pc := t.pc, sp := t.sp, stack := t.stack }
  | .jp _ | .jpV0 _ | .seByte _ _ | .sneByte _ _ | .seReg _ _ | .sneReg _ _ => t = { s with pc := t.pc }
  | .skp _ | .sknp _ => t = { s with pc := t.pc, keyIn := t.keyIn, draws := t.draws }
  | .ldByte _ _ | .addByte _ _ | .ldReg _ _ | .orReg _ _ | .andReg _ _ | .xorReg _ _ | .addReg _ _ | .subReg _ _
  | .shr _ _ | .subnReg _ _ | .shl _ _ | .ldVxDT _ | .loadRegs _ => t = { s with v := t.v }
  | .rnd _ _ => t = { s with v := t.v, rndIn := t.rndIn, draws := t.draws }
  | .drw _ _ _ => t = { s with v := t.v, erasedIn := t.erasedIn, draws := t.draws, out := t.out }
  | .ldVxK _ => t = { s with paused := t.paused, keyDest := t.keyDest }
  | .ldDTVx _ => t = { s with dt := t.dt }
  | .ldSTVx _ => t = { s with st := t.st }
  | .ldI _ | .addI _ | .ldF _ => t = { s with i := t.i }
  | .ldB _ | .storeRegs _ => t = { s with mem := t.mem }

section
variable (s : State)

theorem State.skipIf_frame (c : Bool) : s.skipIf c = { s with pc := (s.skipIf c).pc } := (s.onlyPc_skipIf c).1

/-- A skip on a key query writes `PC` and takes at most one answer. -/
theorem State.skipIf_keyHeld_frame (k : Byte) (c : Bool) :
    let t := (s.keyHeld k).2.skipIf c
    t = { s with pc := t.pc, keyIn := t.keyIn, draws := t.draws } := by
  rw [s.keyHeld_frame k]
  cases c <;> rfl

theorem completed_writesOnly (i : Instr) : WritesOnly i s (completed i s) := by
  cases i with
  | ret =>
    rcases Nat.eq_zero_or_pos s.sp.val with h | h
    · simp [WritesOnly, completed, State.pop_empty h]
    · rw [completed_ret (State.pop_eq h)]; rfl
  | call nnn =>
    rcases Nat.lt_or_ge s.sp.val 16 with h | h
    · rw [completed_call (State.push_eq s.pc h)]; rfl
    · have hfull : s.push s.pc = none := State.push_full s.pc (by omega)
      simp [WritesOnly, completed, hfull]
  | seByte x kk | sneByte x kk => exact s.skipIf_frame _
  | seReg x y | sneReg x y => exact s.skipIf_frame _
  | skp x | sknp x => exact s.skipIf_keyHeld_frame s.v[x] _
  | rnd x kk =>
    simp only [WritesOnly, completed]
    rw [s.drawRnd_frame]; rfl
  | drw x y n =>
    simp only [WritesOnly, completed, State.togglePixels_spec]
    rfl
  | _ => rfl

end

end Sys2Proof.Machine
end

section
/-! What every instruction does and leaves alone (spec/10_state.md R12, R18 to R25; spec/60_exceptions.md R200, R206).
A completed instruction writes only the fields of `WritesOnly`; one that faults writes only the record. -/

namespace Sys2Proof.Machine

section
variable {s t : State} {i : Instr}

/-! ## A field keeps its value under every instruction that does not write it -/

theorem WritesOnly.fault_eq (h : WritesOnly i s t) : t.fault = s.fault := by
  cases i <;> exact (congrArg State.fault h).trans rfl

theorem WritesOnly.agenda_eq (h : WritesOnly i s t) : t.agenda = s.agenda := by
  cases i <;> exact (congrArg State.agenda h).trans rfl

theorem WritesOnly.font_eq (h : WritesOnly i s t) : t.font = s.font := by
  cases i <;> exact (congrArg State.font h).trans rfl

theorem WritesOnly.i_eq (h : WritesOnly i s t) (hi : ∀ nnn x, i ≠ .ldI nnn ∧ i ≠ .addI x ∧ i ≠ .ldF x) :
    t.i = s.i := by
  cases i with
  | ldI nnn => exact absurd rfl (hi nnn 0).1
  | addI x => exact absurd rfl (hi 0 x).2.1
  | ldF x => exact absurd rfl (hi 0 x).2.2
  | _ => exact (congrArg State.i h).trans rfl

theorem WritesOnly.stack_eq (h : WritesOnly i s t) (hi : ∀ nnn, i ≠ .call nnn ∧ i ≠ .ret) :
    t.sp = s.sp ∧ t.stack = s.stack := by
  cases i with
  | call nnn => exact absurd rfl (hi nnn).1
  | ret => exact absurd rfl (hi 0).2
  | _ => exact ⟨(congrArg State.sp h).trans rfl, (congrArg State.stack h).trans rfl⟩

theorem WritesOnly.dt_eq (h : WritesOnly i s t) (hi : ∀ x, i ≠ .ldDTVx x) : t.dt = s.dt := by
  cases i with
  | ldDTVx x => exact absurd rfl (hi x)
  | _ => exact (congrArg State.dt h).trans rfl

theorem WritesOnly.st_eq (h : WritesOnly i s t) (hi : ∀ x, i ≠ .ldSTVx x) : t.st = s.st := by
  cases i with
  | ldSTVx x => exact absurd rfl (hi x)
  | _ => exact (congrArg State.st h).trans rfl

theorem WritesOnly.wait_eq (h : WritesOnly i s t) (hi : ∀ x, i ≠ .ldVxK x) :
    t.paused = s.paused ∧ t.keyDest = s.keyDest := by
  cases i with
  | ldVxK x => exact absurd rfl (hi x)
  | _ => exact ⟨(congrArg State.paused h).trans rfl, (congrArg State.keyDest h).trans rfl⟩

theorem WritesOnly.mem_eq (h : WritesOnly i s t) (hi : ∀ x, i ≠ .ldB x ∧ i ≠ .storeRegs x) : t.mem = s.mem := by
  cases i with
  | ldB x => exact absurd rfl (hi x).1
  | storeRegs x => exact absurd rfl (hi x).2
  | _ => exact (congrArg State.mem h).trans rfl

theorem WritesOnly.out_eq (h : WritesOnly i s t) (hi : ∀ x y n, i ≠ .cls ∧ i ≠ .drw x y n) : t.out = s.out := by
  cases i with
  | cls => exact absurd rfl (hi 0 0 0).1
  | drw x y n => exact absurd rfl (hi x y n).2
  | _ => exact (congrArg State.out h).trans rfl

theorem WritesOnly.rndIn_eq (h : WritesOnly i s t) (hi : ∀ x kk, i ≠ .rnd x kk) : t.rndIn = s.rndIn := by
  cases i with
  | rnd x kk => exact absurd rfl (hi x kk)
  | _ => exact (congrArg State.rndIn h).trans rfl

theorem WritesOnly.keyIn_eq (h : WritesOnly i s t) (hi : ∀ x, i ≠ .skp x ∧ i ≠ .sknp x) : t.keyIn = s.keyIn := by
  cases i with
  | skp x => exact absurd rfl (hi x).1
  | sknp x => exact absurd rfl (hi x).2
  | _ => exact (congrArg State.keyIn h).trans rfl

theorem WritesOnly.erasedIn_eq (h : WritesOnly i s t) (hi : ∀ x y n, i ≠ .drw x y n) :
    t.erasedIn = s.erasedIn := by
  cases i with
  | drw x y n => exact absurd rfl (hi x y n)
  | _ => exact (congrArg State.erasedIn h).trans rfl

/-! ## A general register is written only as the table of R12 says -/

theorem State.drawRnd_v (s : State) : s.drawRnd.2.v = s.v :=
  (congrArg State.v s.drawRnd_frame).trans rfl

theorem State.togglePixels_v (s : State) (ps : List (Coord × Coord)) : (s.togglePixels ps).2.v = s.v := by
  rw [togglePixels_spec]; rfl

theorem completed_get {r : Reg} (hw : ¬ writesReg i r) : (completed i s).v[r] = s.v[r] := by
  have h := completed_writesOnly s i
  cases i with
  | ldByte x _ | addByte x _ | ldReg x _ | orReg x _ | andReg x _ | xorReg x _ | ldVxDT x =>
    exact (s.setV_get x r _).trans (if_neg hw)
  | addReg x _ | subReg x _ | shr x _ | subnReg x _ | shl x _ =>
    have hne := not_or.1 hw
    exact (s.setFlagResult_get x r _ _).trans ((if_neg hne.1).trans (if_neg hne.2))
  | rnd x kk => rw [completed, State.setV_get, if_neg (show ¬ r = x from hw), State.drawRnd_v]
  | drw x y n => rw [completed, State.setV_get, if_neg (show ¬ r = flagReg from hw), State.togglePixels_v]
  | loadRegs x => exact (s.loadV_get x r _).trans (if_neg hw)
  | _ => exact (congrArg (·.v[r]) h).trans rfl

end

end Sys2Proof.Machine

namespace Sys2Proof
open Machine

/-- Settles O15: an instruction whose condition holds latches the record, and any other completes, which leaves the
record alone. -/
theorem faultsArePreciseAndExactlyTheListed : Obligations.FaultsArePreciseAndExactlyTheListed := by
  unfold Obligations.FaultsArePreciseAndExactlyTheListed
  intro i s
  cases hf : faultOf i s with
  | none => exact ⟨_, exec_of_faultOf_none hf, (completed_writesOnly s i).fault_eq⟩
  | some p => exact ⟨_, exec_of_faultOf_some hf, rfl⟩

/-- Settles O12: a fault writes no register. -/
theorem registersWrittenByTheTable : Obligations.RegistersWrittenByTheTable := by
  unfold Obligations.RegistersWrittenByTheTable
  intro i s t r h hw
  rcases exec_cases h with ⟨c, m, -, rfl⟩ | ⟨-, rfl⟩
  · rw [State.raise_v]
  · exact completed_get hw

/-- Settles O14: a fault writes none of these fields, and a completed instruction only those of its frame. -/
theorem specialStateHasItsWriters : Obligations.SpecialStateHasItsWriters := by
  unfold Obligations.SpecialStateHasItsWriters
  intro i s t h
  rcases exec_cases h with ⟨c, m, -, rfl⟩ | ⟨-, rfl⟩
  · exact ⟨fun _ => rfl, fun _ => ⟨rfl, rfl⟩, fun _ => rfl, fun _ => rfl, fun _ => ⟨rfl, rfl⟩, fun _ => rfl,
      fun _ => rfl, fun _ => rfl, fun _ => rfl, fun _ => rfl, rfl, rfl⟩
  · have hw := completed_writesOnly s i
    exact ⟨hw.i_eq, hw.stack_eq, hw.dt_eq, hw.st_eq, hw.wait_eq, hw.mem_eq, hw.out_eq, hw.rndIn_eq, hw.keyIn_eq,
      hw.erasedIn_eq, hw.agenda_eq, hw.font_eq⟩

end Sys2Proof
end

section
/-! The step (spec/70_reset_and_hazards.md R240): the cases of a `Step` event in a running core, and that every event
ends in a next state. -/

namespace Sys2Proof.Machine

section
variable {s t : State} {i : Instr}

/-! ## A `Step` event in a core that is neither faulted nor paused -/

theorem stepEvent_of_fetch_error (hf : s.fault.valid = false) (hp : s.paused = false) (hpc : 0xFFE < s.pc.toNat) :
    stepEvent s = .next (s.raiseFetch (max s.pc.toNat 0x1000)) :=
  stepEvent_of_error hf hp (fetch_error hpc)

theorem stepEvent_of_decode_none (hf : s.fault.valid = false) (hp : s.paused = false) (hpc : s.pc.toNat ≤ 0xFFE)
    (hd : decode s.wordAtPc = none) :
    stepEvent s = .next ((s.setPc (s.pc + 2)).raise .decodeFault s.wordAtPc 0) := by
  rw [stepEvent_of_word hf hp (fetch_ok hpc), dispatch_of_none hd]

theorem stepEvent_of_decode_some (hf : s.fault.valid = false) (hp : s.paused = false) (hpc : s.pc.toNat ≤ 0xFFE)
    (hd : decode s.wordAtPc = some i) : stepEvent s = exec i (s.setPc (s.pc + 2)) := by
  rw [stepEvent_of_word hf hp (fetch_ok hpc), dispatch_of_some hd]

/-- Everything a `Step` event can do. -/
theorem stepEvent_cases (s : State) : stepEvent s = .next s ∨
    (s.fault.valid = false ∧ s.paused = false ∧
      ((0xFFE < s.pc.toNat ∧ stepEvent s = .next (s.raiseFetch (max s.pc.toNat 0x1000))) ∨
       (s.pc.toNat ≤ 0xFFE ∧ decode s.wordAtPc = none ∧
          stepEvent s = .next ((s.setPc (s.pc + 2)).raise .decodeFault s.wordAtPc 0)) ∨
       (s.pc.toNat ≤ 0xFFE ∧ ∃ i, decode s.wordAtPc = some i ∧ stepEvent s = exec i (s.setPc (s.pc + 2))))) := by
  by_cases hf : s.fault.valid = true
  · exact .inl (stepEvent_of_fault hf)
  by_cases hp : s.paused = true
  · exact .inl (stepEvent_of_paused hp)
  have hf' : s.fault.valid = false := Bool.eq_false_iff.2 hf
  have hp' : s.paused = false := Bool.eq_false_iff.2 hp
  refine .inr ⟨hf', hp', ?_⟩
  rcases Nat.lt_or_ge 0xFFE s.pc.toNat with hpc | hpc
  · exact .inl ⟨hpc, stepEvent_of_fetch_error hf' hp' hpc⟩
  · cases hd : decode s.wordAtPc with
    | none => exact .inr (.inl ⟨hpc, rfl, stepEvent_of_decode_none hf' hp' hpc hd⟩)
    | some i => exact .inr (.inr ⟨hpc, i, rfl, stepEvent_of_decode_some hf' hp' hpc hd⟩)

theorem step_of_ready (hr : s.Ready) (hd : decode s.wordAtPc = some i) : step s = exec i (s.setPc (s.pc + 2)) := by
  obtain ⟨hag, hf, hp, hpc⟩ := hr
  rw [step_of_nil hag, stepEvent_of_decode_some hf hp hpc hd]

/-! ## Every event ends in a next state -/

theorem stepEvent_total (s : State) : ∃ t, stepEvent s = .next t := by
  rcases stepEvent_cases s with h | ⟨-, -, ⟨-, h⟩ | ⟨-, -, h⟩ | ⟨-, i, -, h⟩⟩
  · exact ⟨_, h⟩
  · exact ⟨_, h⟩
  · exact ⟨_, h⟩
  · obtain ⟨t, ht⟩ := exec_total i (s.setPc (s.pc + 2))
    exact ⟨t, h.trans ht⟩

theorem deliver_total (e : Event) (s : State) : ∃ t, deliver e s = .next t := by
  cases e with
  | step => exact stepEvent_total s
  | reset | load | tick | keyPress => exact ⟨_, rfl⟩

theorem step_total (s : State) : ∃ t, step s = .next t := by
  cases h : s.agenda with
  | nil => rw [step_of_nil h]; exact stepEvent_total s
  | cons e rest => rw [step_of_cons h]; exact deliver_total e _

/-! ## The records that a running core latches -/

/-- `PC` stands at `a + 2` when the fault is found, and the record holds `a` (R206). -/
theorem State.raise_setPc_fault (s : State) (c : FaultCause) (op : Word) (m : Nat) :
    ((s.setPc (s.pc + 2)).raise c op m).fault = ⟨true, c, s.pc, op, false, BitVec.ofNat 17 m⟩ := by
  rw [raise, takeFault, setPc_pc, BitVec.add_sub_cancel]

theorem State.raise_decodeFault_eq (s : State) (op : Word) :
    (s.setPc (s.pc + 2)).raise .decodeFault op 0
      = { s with pc := s.pc + 2, fault := ⟨true, .decodeFault, s.pc, op, false, 0⟩ } :=
  congrArg (fun f => { s with pc := s.pc + 2, fault := f }) (s.raise_setPc_fault .decodeFault op 0)

/-- A fault that an instruction raises records the instruction's own address and word. -/
theorem exec_fault_record (hf : s.fault.valid = false) (hd : decode s.wordAtPc = some i)
    (h : exec i (s.setPc (s.pc + 2)) = .next t) (ht : t.fault.valid = true) :
    t.fault.addr = s.pc ∧ t.fault.opcode = s.wordAtPc := by
  rcases exec_cases h with ⟨c, m, -, rfl⟩ | ⟨-, rfl⟩
  · rw [State.raise_setPc_fault]
    exact ⟨rfl, encode_of_decode hd⟩
  · rw [(completed_writesOnly _ i).fault_eq, State.setPc_fault, hf] at ht
    cases ht

theorem State.onlyFault_raiseFetch (s : State) (m : Nat) : OnlyFault s (s.raiseFetch m) :=
  ⟨rfl, fun a => congrFun (s.raiseFetch_readByte m) a⟩

theorem State.raiseFetch_maddr (s : State) {m : Nat} (hm : m < 2 ^ 17) : (s.raiseFetch m).fault.maddr.toNat = m :=
  Nat.mod_eq_of_lt hm

end

end Sys2Proof.Machine

namespace Sys2Proof
open Machine

/-- Settles O6. -/
theorem stepRunsTheDecodedInstruction : Obligations.StepRunsTheDecodedInstruction := by
  unfold Obligations.StepRunsTheDecodedInstruction
  exact fun _ _ => step_of_ready

/-- Settles O7: a legal word is the encoding of the instruction it decodes to, so the record of its fault holds it. -/
theorem stepFollowsTheAlgorithm : Obligations.StepFollowsTheAlgorithm := by
  unfold Obligations.StepFollowsTheAlgorithm
  refine fun s => ⟨stepEvent_of_fault, stepEvent_of_paused, fun hf hp => ⟨fun hpc => ?fetchFault,
    fun hpc hd => ?decodeFault, fun i hpc hd => ⟨stepEvent_of_decode_some hf hp hpc hd, fun t ht hv => ?record⟩⟩⟩
  case fetchFault => exact stepEvent_of_fetch_error hf hp hpc
  case decodeFault => rw [← s.raise_decodeFault_eq]; exact stepEvent_of_decode_none hf hp hpc hd
  case record => exact exec_fault_record hf hd ((stepEvent_of_decode_some hf hp hpc hd).symm.trans ht) hv

/-- Settles O8: the lowest missing address is `PC` itself, or 0x1000 when only the second byte is missing. -/
theorem fetchIsBigEndianOrFaults : Obligations.FetchIsBigEndianOrFaults := by
  unfold Obligations.FetchIsBigEndianOrFaults
  intro s
  have hlt := s.pc.isLt
  refine ⟨fun hpc => ⟨s.wordAtPc, fetch_ok hpc, wordOfBytes_halves _ _⟩, fun hf hp hpc => ?_, fun hf hp hpc => ?_⟩
  · refine ⟨_, stepEvent_of_fetch_error hf hp (by omega), s.onlyFault_raiseFetch _, rfl, rfl, rfl, ?_⟩
    rw [s.raiseFetch_maddr (by omega)]; omega
  · refine ⟨_, stepEvent_of_fetch_error hf hp (by omega), s.onlyFault_raiseFetch _, rfl, rfl, rfl, ?_⟩
    rw [s.raiseFetch_maddr (by omega)]; omega

/-- Settles O9: no instruction and no event stops the model. -/
theorem everyEventAnswersANextState : Obligations.EveryEventAnswersANextState := by
  unfold Obligations.EveryEventAnswersANextState
  exact ⟨step_total, deliver_total⟩

end Sys2Proof
end

section
/-! How each instruction leaves `PC` (spec/10_state.md R16), read off the state a completed instruction leaves. The
skips on a key need the key query as a function of the inputs that are listed or free (R145 to R147, R176). -/

namespace Sys2Proof.Machine

/-! ## The key query -/

/-- The value of `key_down` that the next query sees. -/
def State.keysNext (s : State) : BitVec 16 := s.keyIn.headD (Config.keyDown s.draws)

theorem KeysSeen.eq_keysNext {s t : State} {k : BitVec 16} (h : KeysSeen s k t) : k = s.keysNext := by
  rcases h with ⟨rest, h, -⟩ | ⟨h, rfl, -⟩ <;> rw [State.keysNext, h] <;> rfl

theorem keyIsHeld_iff {s : State} {k : Byte} :
    KeyIsHeld s k ↔ k.toNat ≤ 15 ∧ s.keysNext.getLsbD k.toNat = true := by
  constructor
  · rintro ⟨hk, keys, t, hseen, hbit⟩
    exact ⟨hk, hseen.eq_keysNext ▸ hbit⟩
  · rintro ⟨hk, hbit⟩
    exact ⟨hk, _, _, s.drawKeys_spec, s.drawKeys_spec.eq_keysNext ▸ hbit⟩

theorem State.keyHeld_iff {s : State} {k : Byte} : (s.keyHeld k).1 = true ↔ KeyIsHeld s k := by
  rw [keyIsHeld_iff, keyHeld]
  split
  case isTrue hk =>
    show s.drawKeys.1.getLsbD k.toNat = true ↔ _
    rw [s.drawKeys_spec.eq_keysNext, and_iff_right hk]
  case isFalse hk => simp [hk]

theorem keyIsHeld_setPc {s : State} {k : Byte} {p : Word} : KeyIsHeld (s.setPc p) k ↔ KeyIsHeld s k := by
  rw [keyIsHeld_iff, keyIsHeld_iff]; rfl

theorem State.keyHeld_pc (s : State) (k : Byte) : (s.keyHeld k).2.pc = s.pc :=
  (congrArg State.pc (s.keyHeld_frame k)).trans rfl

/-! ## Skips and the stack -/

/-- A skip in a core whose `PC` is already `a + 2`. -/
theorem skipsOn_skipIf {u : State} {a : Word} {b : Bool} {c : Prop} (hu : u.pc = a + 2) (hb : b = true ↔ c) :
    SkipsOn c a (u.skipIf b) := by
  constructor
  · intro hc
    rw [State.skipIf_pc, hb.2 hc, if_pos rfl, hu, BitVec.add_assoc]
    rfl
  · intro hc
    rw [State.skipIf_pc, if_neg fun h => hc (hb.1 h), hu]

/-- How a completed instruction leaves `PC`, when it is entered with `PC` already advanced (R80). -/
theorem completed_pcLeft {s : State} {i : Instr} (hf : faultOf i (s.setPc (s.pc + 2)) = none) :
    PcLeft i s (completed i (s.setPc (s.pc + 2))) := by
  have hw := completed_writesOnly (s.setPc (s.pc + 2)) i
  cases i with
  | seByte x kk => exact skipsOn_skipIf rfl beq_iff_eq
  | seReg x y => exact skipsOn_skipIf rfl beq_iff_eq
  | sneByte x kk => exact skipsOn_skipIf rfl bne_iff_ne
  | sneReg x y => exact skipsOn_skipIf rfl bne_iff_ne
  | skp x => exact skipsOn_skipIf (State.keyHeld_pc _ _) (State.keyHeld_iff.trans keyIsHeld_setPc)
  | sknp x =>
    refine skipsOn_skipIf (State.keyHeld_pc _ _) ?_
    rw [Bool.not_eq_true', ← Bool.not_eq_true]
    exact not_congr (State.keyHeld_iff.trans keyIsHeld_setPc)
  | jp nnn => exact addrImm_toNat nnn
  | jpV0 nnn => exact addrImm_add_zext16_toNat nnn _
  | call nnn =>
    have hroom := faultOf_call_eq_none.1 hf
    have hlt : s.sp.val < 16 := hroom
    rw [completed_call (State.push_eq _ hroom)]
    exact ⟨addrImm_toNat nnn, rfl, by simp [hlt]⟩
  | ret =>
    have hheld := faultOf_ret_eq_none.1 hf
    rw [completed_ret (State.pop_eq hheld)]
    have hlt : s.sp.val - 1 < 16 := by omega
    exact ⟨(Nat.sub_add_cancel hheld).symm, by simp [hlt]⟩
  | ldVxK x => exact ⟨rfl, rfl⟩
  | _ => exact (congrArg State.pc hw).trans rfl

end Sys2Proof.Machine

namespace Sys2Proof
open Machine

/-- Settles O13: a step that leaves no fault latched has completed its instruction. -/
theorem pcLeftAsTheTableSays : Obligations.PcLeftAsTheTableSays := by
  unfold Obligations.PcLeftAsTheTableSays
  intro s t i hr hd hstep hv
  rw [step_of_ready hr hd] at hstep
  rcases exec_cases hstep with ⟨c, m, -, rfl⟩ | ⟨hf, rfl⟩
  · cases hv
  · exact completed_pcLeft hf

end Sys2Proof
end

section
/-! The invariant of spec/10_state.md R30. An instruction keeps it because the bound on `PC` follows from the table of
R16, memory is written by range-checked stores, and the stack only by a call, whose advanced `PC` came from an
accepted fetch. -/

namespace Sys2Proof.Machine

section
variable {s t : State} {i : Instr}

/-! ## The parts of the invariant that a completed instruction keeps -/

/-- Every live entry is the address after a `2nnn` that fetch accepted. -/
def State.EntriesOk (s : State) : Prop :=
  ∀ k : Fin 16, k.val < s.sp.val → 0x0002 ≤ s.stack[k].toNat ∧ s.stack[k].toNat ≤ 0x1000

theorem SkipsOn.pc_le {c : Prop} {a : Word} (h : SkipsOn c a t) (ha : a.toNat ≤ 0xFFE) : t.pc.toNat ≤ 0x10FE := by
  by_cases hc : c
  · rw [h.1 hc, BitVec.toNat_add]; simp only [BitVec.reduceToNat]; omega
  · rw [h.2 hc, BitVec.toNat_add]; simp only [BitVec.reduceToNat]; omega

/-- The largest address the table of R16 leaves is `Bnnn`'s 0xFFF + 0xFF. -/
theorem PcLeft.pc_le (h : PcLeft i s t) (hpc : s.pc.toNat ≤ 0xFFE) (hst : s.EntriesOk) : t.pc.toNat ≤ 0x10FE := by
  have next_le (hn : t.pc = s.pc + 2) : t.pc.toNat ≤ 0x10FE := by
    rw [hn, BitVec.toNat_add]; simp only [BitVec.reduceToNat]; omega
  cases i with
  | seByte | sneByte => exact SkipsOn.pc_le h hpc
  | seReg | sneReg => exact SkipsOn.pc_le h hpc
  | skp | sknp => exact SkipsOn.pc_le h hpc
  | jp nnn =>
    have hn : t.pc.toNat = nnn.toNat := h
    have := nnn.isLt; omega
  | call nnn =>
    obtain ⟨hn, -⟩ := h
    have := nnn.isLt; omega
  | jpV0 nnn =>
    have hn : t.pc.toNat = nnn.toNat + s.v[(0 : Reg)].toNat := h
    have := nnn.isLt; have := s.v[(0 : Reg)].isLt; omega
  | ret =>
    obtain ⟨hsp, hpop⟩ := h
    obtain ⟨hk, hget⟩ := List.getElem?_eq_some_iff.1 hpop
    rw [Vector.length_toList] at hk
    have hle := (hst ⟨t.sp.val, hk⟩ (by rw [hsp]; exact Nat.lt_succ_self _)).2
    rw [← hget, Vector.getElem_toList]
    exact Nat.le_trans hle (by decide)
  | ldVxK x => exact next_le h.1
  | _ => exact next_le h

theorem State.regsTo_length (s : State) (x : Reg) : (s.regsTo x).length = x.val + 1 := by
  have := x.isLt
  rw [regsTo, List.length_take, Vector.length_toList]; omega

theorem completed_memWf (h : s.memWf = true) (hf : faultOf i s = none) : (completed i s).memWf = true := by
  have hw := completed_writesOnly s i
  cases i with
  | ldB x =>
    rw [faultOf_ldB, rangeFaultOf_eq_none] at hf
    exact State.storeBytes_memWf h (by simp only [bcdDigits, List.length_cons, List.length_nil]; omega)
  | storeRegs x =>
    rw [faultOf_storeRegs, rangeFaultOf_eq_none] at hf
    exact State.storeBytes_memWf h (by rw [State.regsTo_length]; omega)
  | _ =>
    rw [State.memWf, hw.font_eq, hw.mem_eq (fun _ => ⟨nofun, nofun⟩)]
    exact h

theorem completed_entriesOk (h : s.EntriesOk) (hlo : 0x0002 ≤ s.pc.toNat) (hhi : s.pc.toNat ≤ 0x1000)
    (hf : faultOf i s = none) : (completed i s).EntriesOk := by
  have hw := completed_writesOnly s i
  cases i with
  | call nnn =>
    have hroom := faultOf_call_eq_none.1 hf
    rw [completed_call (State.push_eq _ hroom)]
    intro k hk
    have hk' : k.val < s.sp.val + 1 := hk
    show 0x0002 ≤ ((s.stack.set s.sp.val s.pc)[k]).toNat ∧ ((s.stack.set s.sp.val s.pc)[k]).toNat ≤ 0x1000
    rcases Nat.lt_succ_iff_lt_or_eq.1 hk' with hlt | heq
    · have hget : (s.stack.set s.sp.val s.pc)[k] = s.stack[k] := Vector.getElem_set_ne hroom k.isLt (by omega)
      rw [hget]; exact h k hlt
    · have hget : (s.stack.set s.sp.val s.pc)[k] = s.pc := by simp [heq]
      rw [hget]; exact ⟨hlo, hhi⟩
  | ret =>
    rw [completed_ret (State.pop_eq (faultOf_ret_eq_none.1 hf))]
    intro k hk
    have hk' : k.val < s.sp.val - 1 := hk
    exact h k (by omega)
  | _ =>
    obtain ⟨hsp, hstack⟩ := hw.stack_eq (fun _ => ⟨nofun, nofun⟩)
    rw [State.EntriesOk, hsp, hstack]
    exact h

theorem completed_notBoth (hv : s.fault.valid = false) :
    ¬ ((completed i s).paused = true ∧ (completed i s).fault.valid = true) := by
  rw [(completed_writesOnly s i).fault_eq, hv]
  exact fun h => Bool.false_ne_true h.2

/-! ## A latched record -/

theorem faultOf_cause_ne_none {c : FaultCause} {m : Nat} (h : faultOf i s = some (c, m)) : c ≠ .none := by
  have ofRange {base len : Nat} (h : rangeFaultOf base len = some (c, m)) : c ≠ .none := by
    obtain ⟨_, -, hcm⟩ := Option.map_eq_some_iff.1 h
    cases hcm; decide
  cases i with
  | ret => obtain ⟨-, rfl, -⟩ := faultOf_ret_eq_some.1 h; decide
  | call nnn => obtain ⟨-, rfl, -⟩ := faultOf_call_eq_some.1 h; decide
  | drw x y n => exact ofRange (faultOf_drw.symm.trans h)
  | ldB x => exact ofRange (faultOf_ldB.symm.trans h)
  | storeRegs x => exact ofRange (faultOf_storeRegs.symm.trans h)
  | loadRegs x => exact ofRange (faultOf_loadRegs.symm.trans h)
  | _ => cases h

/-- Fault entry in a core that is not waiting keeps the invariant. -/
theorem State.Inv.takeFault (h : s.Inv) (hp : s.paused = false) {c : FaultCause} (hc : c ≠ .none)
    (a op : Word) (f : Bool) (m : Nat) : (s.takeFault c a op f m).Inv where
  memWf := h.memWf
  pcMax := h.pcMax
  entries := h.entries
  notBoth hb := Bool.false_ne_true (hp.symm.trans hb.1)
  record := hc

/-! ## The moves of `PC` before and by an instruction -/

theorem State.Inv.setPc (h : s.Inv) {p : Word} (hp : p.toNat ≤ 0x10FE) : (s.setPc p).Inv where
  memWf := h.memWf
  pcMax := hp
  entries := h.entries
  notBoth := h.notBoth
  record := h.record

/-- The advanced `PC` after an accepted fetch is in 0x0002..0x1000. -/
theorem pc_add_two_toNat {p : Word} (hp : p.toNat ≤ 0xFFE) : (p + 2).toNat = p.toNat + 2 := by
  rw [BitVec.toNat_add]; simp only [BitVec.reduceToNat]; omega

theorem State.Inv.exec (h : s.Inv) (hv : s.fault.valid = false) (hp : s.paused = false)
    (hpc : s.pc.toNat ≤ 0xFFE) (he : exec i (s.setPc (s.pc + 2)) = .next t) : t.Inv := by
  have hadv := pc_add_two_toNat hpc
  have hs := h.setPc (p := s.pc + 2) (by omega)
  rcases exec_cases he with ⟨c, m, hf, rfl⟩ | ⟨hf, rfl⟩
  · exact hs.takeFault hp (faultOf_cause_ne_none hf) _ _ _ _
  · exact {
      memWf := completed_memWf hs.memWf hf
      pcMax := (completed_pcLeft hf).pc_le hpc h.entries
      entries := completed_entriesOk hs.entries
        (by rw [setPc_pc, hadv]; omega) (by rw [setPc_pc, hadv]; omega) hf
      notBoth := completed_notBoth hv
      record := by rw [(completed_writesOnly _ i).fault_eq]; exact hs.record }

/-! ## Every event -/

theorem State.Inv.stepEvent (h : s.Inv) (he : stepEvent s = .next t) : t.Inv := by
  rcases stepEvent_cases s with hs | ⟨hv, hp, ⟨-, hs⟩ | ⟨hpc, -, hs⟩ | ⟨hpc, i, -, hs⟩⟩
  · cases hs.symm.trans he
    exact h
  · cases hs.symm.trans he
    exact h.takeFault hp (by decide) _ _ _ _
  · cases hs.symm.trans he
    have hadv := pc_add_two_toNat hpc
    exact (h.setPc (p := s.pc + 2) (by omega)).takeFault hp (by decide) _ _ _ _
  · exact h.exec hv hp hpc (hs.symm.trans he)

theorem State.Inv.resetCore (s : State) : s.resetCore.Inv where
  memWf := rfl
  pcMax := (by decide : (0x0200 : Word).toNat ≤ 0x10FE)
  entries k hk := absurd hk (Nat.not_lt_zero k.val)
  notBoth hb := Bool.false_ne_true hb.1
  record := rfl

theorem State.Inv.loadProgram (h : s.Inv) (bytes : List Byte) : (s.loadProgram bytes).Inv := by
  unfold State.loadProgram
  split
  case isTrue => exact ⟨h.memWf, h.pcMax, h.entries, h.notBoth, h.record⟩
  case isFalse hlen =>
    exact ⟨State.storeBytes_memWf h.memWf (by omega), h.pcMax, h.entries, h.notBoth, h.record⟩

theorem State.Inv.tick (h : s.Inv) : s.tick.Inv := ⟨h.memWf, h.pcMax, h.entries, h.notBoth, h.record⟩

theorem State.Inv.keyPress (h : s.Inv) (k : Key) : (s.keyPress k).Inv := by
  unfold State.keyPress
  split
  case isTrue => exact ⟨h.memWf, h.pcMax, h.entries, fun hb => Bool.false_ne_true hb.1, h.record⟩
  case isFalse => exact h

theorem State.Inv.deliver {e : Event} (h : s.Inv) (he : deliver e s = .next t) : t.Inv := by
  cases e with
  | step => exact h.stepEvent he
  | reset => cases he; exact State.Inv.resetCore s
  | load bytes => cases he; exact h.loadProgram bytes
  | tick => cases he; exact h.tick
  | keyPress k => cases he; exact h.keyPress k

theorem State.Inv.withAgenda (h : s.Inv) (rest : List Event) : ({ s with agenda := rest } : State).Inv :=
  ⟨h.memWf, h.pcMax, h.entries, h.notBoth, h.record⟩

end

end Sys2Proof.Machine

namespace Sys2Proof
open Machine

/-- Settles O10: the empty memory is canonical, and no entry is live. -/
theorem invariantHoldsAtReset : Obligations.InvariantHoldsAtReset := by
  unfold Obligations.InvariantHoldsAtReset
  exact State.Inv.resetCore State.reset

/-- Settles O11: by the event the step delivers. -/
theorem invariantKeptByEveryStep : Obligations.InvariantKeptByEveryStep := by
  unfold Obligations.InvariantKeptByEveryStep
  intro s t h hstep
  cases hag : s.agenda with
  | nil => exact h.stepEvent ((step_of_nil hag).symm.trans hstep)
  | cons e rest => exact (h.withAgenda rest).deliver ((step_of_cons hag).symm.trans hstep)

end Sys2Proof
end

section
/-! No instruction reads `ST`, `KEY_DEST` or the fault record (spec/10_state.md R21, R23, R24). Two states that differ
in these alone agree on every fault condition, and a completed instruction leaves them so. -/

namespace Sys2Proof.Machine

/-- `u` is `t` but for `ST`, `KEY_DEST` and `FAULT`. -/
def SameVisible (t u : State) : Prop := u = { t with st := u.st, keyDest := u.keyDest, fault := u.fault }

section
variable {t u : State}

theorem SameVisible.raise (h : SameVisible t u) (c : FaultCause) (op : Word) (m : Nat) :
    SameVisible (t.raise c op m) (u.raise c op m) := by
  rw [SameVisible] at h; rw [h]; rfl

theorem SameVisible.setV (h : SameVisible t u) (r : Reg) (x : Byte) : SameVisible (t.setV r x) (u.setV r x) := by
  rw [SameVisible] at h; rw [h]; rfl

theorem SameVisible.skipIf (h : SameVisible t u) (c : Bool) : SameVisible (t.skipIf c) (u.skipIf c) := by
  cases c with
  | false => exact h
  | true => rw [SameVisible] at h; rw [h]; rfl

/-- The points of a sprite depend on the bytes of memory only. -/
theorem spritePoints_congr (h : u.readByte = t.readByte) (base : Nat) (x y : Coord) (row rows : Nat) :
    u.spritePoints base x y row rows = t.spritePoints base x y row rows := by
  induction rows generalizing row with
  | zero => rfl
  | succ rows ih => rw [State.spritePoints, State.spritePoints, h, ih]

end

section
variable (s : State) (b : Byte) (r : Reg) (f : FaultRecord)

/-- `s` with any other contents of `ST`, `KEY_DEST` and `FAULT`. -/
def State.withHidden : State := { s with st := b, keyDest := r, fault := f }

theorem faultOf_withHidden (i : Instr) : faultOf i (s.withHidden b r f) = faultOf i s := by
  cases i <;> rfl

/-! ## The free inputs are drawn alike, and the sprites are the same -/

theorem drawRnd_withHidden : (s.withHidden b r f).drawRnd = (s.drawRnd.1, s.drawRnd.2.withHidden b r f) := by
  cases h : s.rndIn <;> simp [State.drawRnd, State.withHidden, h]

theorem drawKeys_withHidden : (s.withHidden b r f).drawKeys = (s.drawKeys.1, s.drawKeys.2.withHidden b r f) := by
  cases h : s.keyIn <;> simp [State.drawKeys, State.withHidden, h]

theorem keyHeld_withHidden (k : Byte) :
    (s.withHidden b r f).keyHeld k = ((s.keyHeld k).1, (s.keyHeld k).2.withHidden b r f) := by
  unfold State.keyHeld
  split
  · rw [drawKeys_withHidden]
  · rfl

theorem togglePixels_withHidden (ps : List (Coord × Coord)) :
    (s.withHidden b r f).togglePixels ps = ((s.togglePixels ps).1, (s.togglePixels ps).2.withHidden b r f) := by
  rw [State.togglePixels_spec, State.togglePixels_spec]
  rfl

theorem drawPoints_withHidden (x y : Reg) (n : BitVec 4) :
    (s.withHidden b r f).drawPoints x y n = s.drawPoints x y n :=
  spritePoints_congr (t := s) (u := s.withHidden b r f) rfl _ _ _ _ _

theorem completed_sameVisible (i : Instr) :
    SameVisible (completed i s) (completed i (s.withHidden b r f)) := by
  have hs (t : State) : SameVisible t (t.withHidden b r f) := rfl
  cases i with
  | ret =>
    rcases Nat.eq_zero_or_pos s.sp.val with h | h
    · simp only [completed, State.pop_empty (s := s) h, State.pop_empty (s := s.withHidden b r f) h, hs]
    · rw [completed_ret (State.pop_eq h), completed_ret (State.pop_eq (s := s.withHidden b r f) h)]; rfl
  | call nnn =>
    rcases Nat.lt_or_ge s.sp.val 16 with h | h
    · rw [completed_call (State.push_eq _ h), completed_call (State.push_eq (s := s.withHidden b r f) _ h)]; rfl
    · have hfull : s.sp.val = 16 := by omega
      simp only [completed, State.push_full (s := s) _ hfull, State.push_full (s := s.withHidden b r f) _ hfull, hs]
  | seByte x kk | sneByte x kk => exact (hs s).skipIf _
  | seReg x y | sneReg x y => exact (hs s).skipIf _
  | skp x | sknp x =>
    have hv : (s.withHidden b r f).v = s.v := rfl
    simp only [completed, hv, keyHeld_withHidden]
    exact (hs _).skipIf _
  | rnd x kk =>
    simp only [completed, drawRnd_withHidden]
    exact (hs _).setV _ _
  | drw x y n =>
    simp only [completed, drawPoints_withHidden, togglePixels_withHidden]
    exact (hs _).setV _ _
  | _ => rfl

end

end Sys2Proof.Machine

namespace Sys2Proof
open Machine

/-- Settles O18: the fault condition is the same in both states, and so is what either outcome leaves visible. -/
theorem hiddenStateIsNotRead : Obligations.HiddenStateIsNotRead := by
  unfold Obligations.HiddenStateIsNotRead
  intro i s b r f
  have hsame := faultOf_withHidden s b r f i
  cases hf : faultOf i s with
  | none =>
    exact ⟨_, _, exec_of_faultOf_none hf, exec_of_faultOf_none (hsame.trans hf), completed_sameVisible s b r f i⟩
  | some p => exact ⟨_, _, exec_of_faultOf_some hf, exec_of_faultOf_some (hsame.trans hf), rfl⟩

end Sys2Proof
end

section
/-! The canonical form of memory (log entry 4) is unique: below its first entry a canonical list reads as reset left
it, so two lists that read alike begin at the same address. -/

namespace Sys2Proof.Machine.Memory

variable {f : Font}

/-- A listed address reads as its entry, which is not its reset value. -/
theorem read_head_ne {lo : Option Nat} {b : Nat} {w : Byte} {m : Memory}
    (h : wfAbove f lo ((b, w) :: m) = true) : read f ((b, w) :: m) b ≠ resetByte f b := by
  obtain ⟨-, -, hw, -⟩ := wfAbove_cons.1 h
  rwa [read, if_pos rfl]

/-- An address below the first entry is unlisted. -/
theorem read_below_head {lo : Option Nat} {a b : Nat} {w : Byte} {m : Memory}
    (h : wfAbove f lo ((b, w) :: m) = true) (ha : a < b) : read f ((b, w) :: m) a = resetByte f a := by
  obtain ⟨-, hb, hw, hm⟩ := wfAbove_cons.1 h
  exact read_of_wfAbove (wfAbove_cons.2 ⟨fun l hl => by cases hl; exact ha, hb, hw, hm⟩) (Nat.le_refl a)

/-- Two canonical lists that begin with the same entry and read alike have tails that read alike. -/
theorem read_tail_eq {b : Nat} {w : Byte} {m m' : Memory} (hm : wfAbove f (some b) m = true)
    (hm' : wfAbove f (some b) m' = true) (h : ∀ a, read f ((b, w) :: m) a = read f ((b, w) :: m') a) (a : Nat) :
    read f m a = read f m' a := by
  rcases Nat.lt_or_ge b a with hba | hab
  · have hne : a ≠ b := by omega
    simpa only [read, if_neg hne] using h a
  · rw [read_of_wfAbove hm hab, read_of_wfAbove hm' hab]

theorem eq_of_read_eq {m : Memory} : ∀ {lo lo' : Option Nat} {m' : Memory}, wfAbove f lo m = true →
    wfAbove f lo' m' = true → (∀ a, read f m a = read f m' a) → m = m' := by
  induction m with
  | nil =>
    intro lo lo' m' _ h' hr
    cases m' with
    | nil => rfl
    | cons p m' => exact absurd (hr p.1).symm (read_head_ne h')
  | cons p m ih =>
    obtain ⟨b, w⟩ := p
    intro lo lo' m' h h' hr
    cases m' with
    | nil => exact absurd (hr b) (read_head_ne h)
    | cons p' m' =>
      obtain ⟨b', w'⟩ := p'
      rcases Nat.lt_trichotomy b b' with hlt | rfl | hgt
      · exact absurd ((hr b).trans (read_below_head h' hlt)) (read_head_ne h)
      · obtain rfl : w = w' := by simpa [read] using hr b
        obtain ⟨-, -, -, hm⟩ := wfAbove_cons.1 h
        obtain ⟨-, -, -, hm'⟩ := wfAbove_cons.1 h'
        rw [ih hm hm' (read_tail_eq hm hm' hr)]
      · exact absurd ((hr b').symm.trans (read_below_head h hgt)) (read_head_ne h')

end Sys2Proof.Machine.Memory

namespace Sys2Proof
open Machine

/-- Settles O19. -/
theorem canonicalMemoryIsUnique : Obligations.CanonicalMemoryIsUnique := by
  unfold Obligations.CanonicalMemoryIsUnique
  exact fun _ _ _ h h' => Memory.eq_of_read_eq h h'

end Sys2Proof
end

section
/-! Runs (spec/60_exceptions.md R207, R208, R214, R216; spec/70_reset_and_hazards.md R250). A core that is faulted or
waits for a key executes nothing, a self-jump is a fixed point of the step, and ticks count down. -/

namespace Sys2Proof.Machine

section
variable {s t u : State}

/-! ## A core that executes nothing -/

/-- The core executes nothing: a fault is latched, or it waits for a key. -/
def State.Halted (s : State) : Prop := s.fault.valid = true ∨ s.paused = true

/-- The event does not end the halt of `s`: it is not a reset, nor a key press while the core waits for one. -/
def KeepsHalt (s : State) (e : Event) : Prop := e ≠ .reset ∧ (s.paused = true → ∀ k, e ≠ .keyPress k)

/-- What a halted core keeps: all but the timers, memory and the model's own fields. -/
structure StandsStill (s t : State) : Prop where
  fault : t.fault = s.fault
  v : t.v = s.v
  pc : t.pc = s.pc
  i : t.i = s.i
  sp : t.sp = s.sp
  stack : t.stack = s.stack
  paused : t.paused = s.paused
  keyDest : t.keyDest = s.keyDest

theorem StandsStill.refl (s : State) : StandsStill s s := ⟨rfl, rfl, rfl, rfl, rfl, rfl, rfl, rfl⟩

theorem StandsStill.trans (h : StandsStill s t) (h' : StandsStill t u) : StandsStill s u where
  fault := h'.fault.trans h.fault
  v := h'.v.trans h.v
  pc := h'.pc.trans h.pc
  i := h'.i.trans h.i
  sp := h'.sp.trans h.sp
  stack := h'.stack.trans h.stack
  paused := h'.paused.trans h.paused
  keyDest := h'.keyDest.trans h.keyDest

theorem StandsStill.halted (h : StandsStill s t) (hs : s.Halted) : t.Halted := by
  rw [State.Halted, h.fault, h.paused]; exact hs

theorem StandsStill.keepsHalt (h : StandsStill s t) {e : Event} (he : KeepsHalt s e) : KeepsHalt t e := by
  rw [KeepsHalt, h.paused]; exact he

theorem stepEvent_of_halted (hs : s.Halted) : stepEvent s = .next s :=
  hs.elim stepEvent_of_fault stepEvent_of_paused

theorem loadProgram_standsStill (s : State) (bytes : List Byte) :
    StandsStill s (s.loadProgram bytes) ∧ (s.loadProgram bytes).agenda = s.agenda := by
  unfold State.loadProgram
  split <;> exact ⟨⟨rfl, rfl, rfl, rfl, rfl, rfl, rfl, rfl⟩, rfl⟩

theorem deliver_standsStill {e : Event} (hs : s.Halted) (he : KeepsHalt s e) :
    ∃ t, deliver e s = .next t ∧ StandsStill s t ∧ t.agenda = s.agenda := by
  cases e with
  | reset => exact absurd rfl he.1
  | step => exact ⟨s, stepEvent_of_halted hs, .refl s, rfl⟩
  | load bytes => exact ⟨_, rfl, loadProgram_standsStill s bytes⟩
  | tick => exact ⟨_, rfl, ⟨rfl, rfl, rfl, rfl, rfl, rfl, rfl, rfl⟩, rfl⟩
  | keyPress k =>
    have hp : ¬ s.paused = true := fun hp => he.2 hp k rfl
    exact ⟨s, congrArg _ (if_neg hp), .refl s, rfl⟩

theorem step_standsStill (hs : s.Halted) (he : ∀ e ∈ s.agenda, KeepsHalt s e) :
    ∃ t, step s = .next t ∧ StandsStill s t ∧ ∀ e ∈ t.agenda, e ∈ s.agenda := by
  cases hag : s.agenda with
  | nil =>
    refine ⟨s, (step_of_nil hag).trans (stepEvent_of_halted hs), .refl s, fun e h => ?_⟩
    rwa [hag] at h
  | cons e rest =>
    have hstill : StandsStill s { s with agenda := rest } := ⟨rfl, rfl, rfl, rfl, rfl, rfl, rfl, rfl⟩
    have hmem : e ∈ s.agenda := by rw [hag]; exact List.mem_cons_self
    obtain ⟨t, ht, hst, hrest⟩ := deliver_standsStill (hstill.halted hs) (hstill.keepsHalt (he e hmem))
    refine ⟨t, (step_of_cons hag).trans ht, hstill.trans hst, fun e' h => ?_⟩
    rw [hrest] at h
    exact List.mem_cons_of_mem e h

/-- A halted core stands still for as long as no event ends the halt. -/
theorem run_standsStill (n : Nat) : ∀ {s : State}, s.Halted → (∀ e ∈ s.agenda, KeepsHalt s e) →
    ∃ t, core.run n s = .next t ∧ StandsStill s t := by
  induction n with
  | zero => exact fun {s} _ _ => ⟨s, run_zero s, .refl s⟩
  | succ n ih =>
    intro s hs he
    obtain ⟨t, hstep, hst, hag⟩ := step_standsStill hs he
    obtain ⟨u, hrun, hst'⟩ := ih (hst.halted hs) fun e h => hst.keepsHalt (he e (hag e h))
    exact ⟨u, (run_succ hstep).trans hrun, hst.trans hst'⟩

/-! ## A self-jump -/

theorem step_of_atSelfJump (h : s.AtSelfJump) (hag : s.agenda = []) : step s = .next s := by
  obtain ⟨hf, hp, nnn, hfetch, hself⟩ := h
  have htarget : addrImm nnn = s.pc := BitVec.eq_of_toNat_eq ((addrImm_toNat nnn).trans hself)
  rw [step_of_nil hag, stepEvent_of_word hf hp hfetch, dispatch_of_some (decode_encode _), exec_jp, htarget]
  rfl

theorem run_of_step_self (h : step s = .next s) (n : Nat) : core.run n s = .next s := by
  induction n with
  | zero => exact run_zero s
  | succ n ih => rw [run_succ h, ih]

/-! ## Ticks -/

theorem countDown_toNat (b : Byte) : (countDown b).toNat = b.toNat - 1 := by
  unfold countDown
  split
  case isTrue h =>
    have h1 : (1 : Byte) ≤ b := BitVec.le_def.2 h
    rw [BitVec.toNat_sub_of_le h1]; rfl
  case isFalse h => omega

theorem run_ticks (n : Nat) : ∀ {s : State} {rest : List Event}, s.agenda = List.replicate n .tick ++ rest →
    ∃ t, core.run n s = .next t ∧ t.dt.toNat = s.dt.toNat - n ∧ t.st.toNat = s.st.toNat - n ∧
      t = { s with dt := t.dt, st := t.st, agenda := rest } := by
  induction n with
  | zero =>
    rintro s rest hag
    have hag' : s.agenda = rest := hag
    exact ⟨s, run_zero s, rfl, rfl, by rw [← hag']⟩
  | succ n ih =>
    intro s rest hag
    obtain ⟨t, hrun, hdt, hst, ht⟩ :=
      ih (s := ({ s with agenda := List.replicate n .tick ++ rest } : State).tick) rfl
    refine ⟨t, (run_succ (step_of_cons hag)).trans hrun, ?_, ?_, ht⟩
    · rw [hdt]; show (countDown s.dt).toNat - n = _; rw [countDown_toNat]; omega
    · rw [hst]; show (countDown s.st).toNat - n = _; rw [countDown_toNat]; omega

end

end Sys2Proof.Machine

namespace Sys2Proof
open Machine

/-- Settles O16: a faulted core stands still, and so does each key press in a core that does not wait. -/
theorem faultStaysUntilReset : Obligations.FaultStaysUntilReset := by
  unfold Obligations.FaultStaysUntilReset
  intro n s hv hp hag
  have hkeep (e : Event) (he : e ∈ s.agenda) : KeepsHalt s e :=
    ⟨hag e he, fun h => absurd (hp.symm.trans h) Bool.false_ne_true⟩
  obtain ⟨t, hrun, h⟩ := run_standsStill n (.inl hv) hkeep
  exact ⟨t, hrun, h.fault, h.v, h.pc, h.i, h.sp, h.stack, h.paused.trans hp, h.keyDest⟩

/-- Settles O17: a core that waits for a key stands still. -/
theorem waitLastsUntilKeyPressOrReset : Obligations.WaitLastsUntilKeyPressOrReset := by
  unfold Obligations.WaitLastsUntilKeyPressOrReset
  intro n s _ hp hag
  have hkeep (e : Event) (he : e ∈ s.agenda) : KeepsHalt s e := ⟨(hag e he).1, fun _ => (hag e he).2⟩
  obtain ⟨t, hrun, h⟩ := run_standsStill n (.inr hp) hkeep
  exact ⟨t, hrun, h.paused.trans hp, h.keyDest, h.fault, h.v, h.pc, h.i, h.sp, h.stack⟩

/-- Settles O27: the state is a fixed point of the step. -/
theorem selfJumpChangesNothing : Obligations.SelfJumpChangesNothing := by
  unfold Obligations.SelfJumpChangesNothing
  exact fun n s h hag => run_of_step_self (step_of_atSelfJump h hag) n

/-- Settles O48: by induction on the number of ticks. -/
theorem ticksCountDownToZero : Obligations.TicksCountDownToZero := by
  unfold Obligations.TicksCountDownToZero
  exact fun n s rest => run_ticks n

end Sys2Proof
end

section
/-! Reset, load and boot (spec/50_interfaces.md R175, R185; spec/70_reset_and_hazards.md R230, R233). -/

namespace Sys2Proof.Machine

section
variable {s t : State}

theorem step_reset {rest : List Event} (h : s.agenda = .reset :: rest) :
    step s = .next ({ s with agenda := rest } : State).resetCore := step_of_cons h

theorem step_load {bytes : List Byte} {rest : List Event} (h : s.agenda = .load bytes :: rest) :
    step s = .next (({ s with agenda := rest } : State).loadProgram bytes) := step_of_cons h

theorem State.loadProgram_of_le {bytes : List Byte} (h : bytes.length ≤ 3584) :
    s.loadProgram bytes = s.storeBytes 0x200 bytes := if_neg (Nat.not_lt.2 h)

theorem State.loadProgram_of_gt {bytes : List Byte} (h : 3584 < bytes.length) :
    s.loadProgram bytes = s.emit .loadError := if_pos h

theorem State.resetCore_readByte (s : State) (a : Nat) :
    s.resetCore.readByte a = if h : a < 80 then s.font[a] else 0 := readByte_of_mem_nil rfl a

theorem State.onlyBytes_storeBytes (s : State) (a : Nat) (xs : List Byte) :
    OnlyBytes a xs.length s (s.storeBytes a xs) := ⟨rfl, fun _ => s.readByte_storeBytes_other⟩

/-- After the store of an instruction's bytes at `PC`, the word at `PC` is its encoding. -/
theorem State.wordAtPc_storeBytes {i : Instr} {more : List Byte} (h : s.memWf = true)
    (hfit : s.pc.toNat + (2 + more.length) ≤ 4096) :
    (s.storeBytes s.pc.toNat (encodeBytes i ++ more)).wordAtPc = encode i := by
  have hlen : (encodeBytes i ++ more).length = 2 + more.length := List.length_append
  have hi := State.readByte_storeBytes_at (s := s) (a := s.pc.toNat) (xs := encodeBytes i ++ more) 0
    (by omega) h (by omega)
  have lo := State.readByte_storeBytes_at (s := s) (a := s.pc.toNat) (xs := encodeBytes i ++ more) 1
    (by omega) h (by omega)
  rw [Nat.add_zero] at hi
  rw [wordAtPc, storeBytes_pc, hi, lo]
  exact wordOfBytes_bytes (encode i)

/-- After a reset with nothing loaded, the word at the entry point is 0. -/
theorem State.wordAtPc_resetCore (s : State) : s.resetCore.wordAtPc = 0 := by
  have hpc : s.resetCore.pc.toNat = 0x200 := rfl
  rw [wordAtPc, hpc, resetCore_readByte, resetCore_readByte, dif_neg (by decide), dif_neg (by decide)]
  rfl

end

end Sys2Proof.Machine

namespace Sys2Proof
open Machine

/-- Settles O49: memory lists nothing after a reset, so every address reads as reset left it. -/
theorem resetEventFromAnyState : Obligations.ResetEventFromAnyState := by
  unfold Obligations.ResetEventFromAnyState
  intro s rest hag
  refine ⟨_, step_reset hag, fun r => Vector.getElem_replicate r.isLt, rfl, rfl, rfl,
    fun k => Vector.getElem_replicate k.isLt, rfl, rfl, rfl, rfl, rfl, rfl, fun a h => ?font, fun a h => ?above,
    rfl, rfl, rfl⟩
  case font => rw [State.resetCore_readByte, dif_pos h]
  case above => rw [State.resetCore_readByte, dif_neg (Nat.not_lt.2 h)]

/-- Settles O50. -/
theorem loadCopiesOrIsRefused : Obligations.LoadCopiesOrIsRefused := by
  unfold Obligations.LoadCopiesOrIsRefused
  intro s bytes rest hag hwf
  refine ⟨fun hlen => ?copies, fun hlen => ?refused⟩
  case copies =>
    rw [step_load hag, State.loadProgram_of_le hlen]
    exact ⟨_, rfl, fun k hk => State.readByte_storeBytes_at k hk hwf (by omega), State.onlyBytes_storeBytes _ _ _⟩
  case refused => rw [step_load hag, State.loadProgram_of_gt hlen]; rfl

/-- Settles O51: the first two bytes of the program are the encoding of its first instruction. -/
theorem bootRunsTheFirstInstruction : Obligations.BootRunsTheFirstInstruction := by
  unfold Obligations.BootRunsTheFirstInstruction
  constructor
  case left =>
    intro s i more hmore hag
    have hlen : (encodeBytes i ++ more).length = 2 + more.length := List.length_append
    have hload := step_load (s := ({ s with agenda := [.load (encodeBytes i ++ more)] } : State).resetCore) rfl
    rw [State.loadProgram_of_le (by omega)] at hload
    refine ⟨_, (run_succ (step_reset hag)).trans (run_succ hload), rfl, rfl, ?_⟩
    refine step_of_ready ⟨rfl, rfl, rfl, (by decide : (0x200 : Word).toNat ≤ 0xFFE)⟩ ?_
    exact (congrArg decode (State.wordAtPc_storeBytes rfl (by
      show 0x200 + (2 + more.length) ≤ 4096; omega))).trans (decode_encode i)
  case right =>
    intro s hag
    have hword := State.wordAtPc_resetCore { s with agenda := [] }
    have hdec : decode ({ s with agenda := [] } : State).resetCore.wordAtPc = none := by rw [hword]; decide
    refine ⟨_, _, run_succ (step_reset hag), ?_, rfl⟩
    rw [step_of_nil rfl, stepEvent_of_decode_none rfl rfl (by decide : (0x200 : Word).toNat ≤ 0xFFE) hdec,
      State.raise_decodeFault_eq, hword]
    rfl

end Sys2Proof
end

section
/-! The register ALU (spec/41_register_alu.md R104 to R112). Each instruction completes and is one register write, or
the two writes `setFlagResult` of a flag and a result (R15). -/

namespace Sys2Proof.Machine

/-! ## A flag and a result -/

section
variable (s : State) (x : Reg) (f b : Byte)

theorem State.setFlagResult_get_same : (s.setFlagResult x f b).v[x] = b := by
  rw [setFlagResult_get, if_pos rfl]

theorem State.setFlagResult_flag (hx : x ≠ flagReg) : (s.setFlagResult x f b).v[flagReg] = f := by
  rw [setFlagResult_get, if_neg hx.symm, if_pos rfl]

theorem State.onlyRegs_setFlagResult : OnlyRegs (fun r => r = x ∨ r = flagReg) s (s.setFlagResult x f b) :=
  ⟨rfl, fun r hr => by rw [setFlagResult_get, if_neg fun h => hr (.inl h), if_neg fun h => hr (.inr h)], fun _ => rfl⟩

end

/-! ## The values of flags and results -/

theorem flagByte_decide (p : Prop) [Decidable p] : flagByte (decide p) = if p then 0x01 else 0x00 := by
  simp only [flagByte, decide_eq_true_eq]

/-- A bit shifted out, as the flag byte. -/
theorem flagByte_getLsbD_toNat (b : Byte) (k : Nat) : (flagByte (b.getLsbD k)).toNat = b.toNat / 2 ^ k % 2 := by
  have hmod := Nat.mod_two_eq_zero_or_one (b.toNat / 2 ^ k)
  rw [BitVec.getLsbD, Nat.testBit_eq_decide_div_mod_eq, flagByte_decide]
  rcases hmod with h | h <;> rw [h] <;> rfl

theorem byte_sub_toNat (a b : Byte) :
    (a - b).toNat = if b.toNat ≤ a.toNat then a.toNat - b.toNat else 256 + a.toNat - b.toNat := by
  have ha := a.isLt
  have hb := b.isLt
  rw [BitVec.toNat_sub]
  split <;> omega

theorem byte_shiftRight_one_toNat (b : Byte) : (b >>> 1).toNat = b.toNat / 2 := by
  rw [BitVec.toNat_ushiftRight, Nat.shiftRight_eq_div_pow]

theorem byte_shiftLeft_one_toNat (b : Byte) : (b <<< 1).toNat = 2 * b.toNat % 256 := by
  rw [BitVec.toNat_shiftLeft, Nat.shiftLeft_eq, Nat.mul_comm]

/-- A difference and its flag, for either order of the operands (R108, R110). -/
theorem State.setFlagResult_sub (s : State) (x : Reg) (a b : Byte) :
    let t := s.setFlagResult x (greaterFlag a b) (a - b)
    t.v[x].toNat = (if b.toNat ≤ a.toNat then a.toNat - b.toNat else 256 + a.toNat - b.toNat) ∧
    (x ≠ flagReg → t.v[flagReg] = if b.toNat < a.toNat then 0x01 else 0x00) ∧
    OnlyRegs (fun r => r = x ∨ r = flagReg) s t := by
  refine ⟨?difference, fun hx => ?flag, s.onlyRegs_setFlagResult x _ _⟩
  case difference => rw [State.setFlagResult_get_same, byte_sub_toNat]
  case flag => rw [State.setFlagResult_flag _ _ _ _ hx, greaterFlag, flagByte_decide]

/-! ## Each instruction as a write -/

section
variable (s : State) (x y : Reg) (kk : Byte)

theorem exec_orReg : exec (.orReg x y) s = .next (s.setV x (s.v[x] ||| s.v[y])) := rfl

theorem exec_andReg : exec (.andReg x y) s = .next (s.setV x (s.v[x] &&& s.v[y])) := rfl

theorem exec_xorReg : exec (.xorReg x y) s = .next (s.setV x (s.v[x] ^^^ s.v[y])) := rfl

theorem exec_addReg : exec (.addReg x y) s =
    .next (s.setFlagResult x (carryFlag s.v[x] s.v[y]) (s.v[x] + s.v[y])) := rfl

theorem exec_subReg : exec (.subReg x y) s =
    .next (s.setFlagResult x (greaterFlag s.v[x] s.v[y]) (s.v[x] - s.v[y])) := rfl

theorem exec_subnReg : exec (.subnReg x y) s =
    .next (s.setFlagResult x (greaterFlag s.v[y] s.v[x]) (s.v[y] - s.v[x])) := rfl

theorem exec_shr : exec (.shr x y) s = .next (s.setFlagResult x (lsbFlag s.v[x]) (s.v[x] >>> 1)) := rfl

theorem exec_shl : exec (.shl x y) s = .next (s.setFlagResult x (msbFlag s.v[x]) (s.v[x] <<< 1)) := rfl

theorem exec_rnd : exec (.rnd x kk) s = .next (s.drawRnd.2.setV x (s.drawRnd.1 &&& kk)) := rfl

end

end Sys2Proof.Machine

namespace Sys2Proof
open Machine

/-- Settles O29: the operations on bytes are bitwise. -/
theorem logicBitByBit : Obligations.LogicBitByBit := by
  unfold Obligations.LogicBitByBit
  intro s x y
  refine ⟨⟨_, exec_orReg s x y, s.onlyRegs_setV x _, fun k _ => ?_⟩,
    ⟨_, exec_andReg s x y, s.onlyRegs_setV x _, fun k _ => ?_⟩,
    ⟨_, exec_xorReg s x y, s.onlyRegs_setV x _, fun k _ => ?_⟩⟩
  · rw [State.setV_get_same, BitVec.getLsbD_or]
  · rw [State.setV_get_same, BitVec.getLsbD_and]
  · rw [State.setV_get_same, BitVec.getLsbD_xor]

/-- Settles O30: the carry is written first and the sum second, so the sum stays when `x` is `VF`. -/
theorem addSetsCarry : Obligations.AddSetsCarry := by
  unfold Obligations.AddSetsCarry
  refine fun s x y => ⟨_, exec_addReg s x y, ?sum, fun hx => ?carry, s.onlyRegs_setFlagResult x _ _⟩
  case sum => rw [State.setFlagResult_get_same, BitVec.toNat_add]
  case carry => rw [State.setFlagResult_flag _ _ _ _ hx, carryFlag, flagByte_decide]

/-- Settles O31: the flag compares the operands that the difference is taken of, in the same order. -/
theorem subtractionsSetGreater : Obligations.SubtractionsSetGreater := by
  unfold Obligations.SubtractionsSetGreater
  intro s x y
  exact ⟨⟨_, exec_subReg s x y, s.setFlagResult_sub x _ _⟩, ⟨_, exec_subnReg s x y, s.setFlagResult_sub x _ _⟩⟩

/-- Settles O32: neither shift reads `y`, and each flag is the bit shifted out. -/
theorem shiftsSetTheBitShiftedOut : Obligations.ShiftsSetTheBitShiftedOut := by
  unfold Obligations.ShiftsSetTheBitShiftedOut
  intro s x y z
  refine ⟨⟨_, exec_shr s x y, exec_shr s x z, ?half, fun hx => ?lsb, s.onlyRegs_setFlagResult x _ _⟩,
    ⟨_, exec_shl s x y, exec_shl s x z, ?twice, fun hx => ?msb, s.onlyRegs_setFlagResult x _ _⟩⟩
  case half => rw [State.setFlagResult_get_same, byte_shiftRight_one_toNat]
  case twice => rw [State.setFlagResult_get_same, byte_shiftLeft_one_toNat]
  case lsb =>
    rw [State.setFlagResult_flag _ _ _ _ hx, lsbFlag, flagByte_getLsbD_toNat]
    omega
  case msb =>
    have hlt := s.v[x].isLt
    rw [State.setFlagResult_flag _ _ _ _ hx, msbFlag, flagByte_getLsbD_toNat]
    omega

/-- Settles O33: the draw takes any listed byte, or a free one when none is listed. -/
theorem randomIsMaskedFreeByte : Obligations.RandomIsMaskedFreeByte := by
  unfold Obligations.RandomIsMaskedFreeByte
  intro s x kk
  refine ⟨⟨_, _, _, s.drawRnd_spec, exec_rnd s x kk, State.setV_get_same _ x _, State.onlyRegs_setV _ x _⟩,
    fun r rest => ⟨_, exec_rnd _ x kk, ?_, rfl⟩⟩
  exact State.setV_get_same _ x _

end Sys2Proof
end

section
/-! A return after a call (spec/40_control_flow.md R81, R83): the pop answers the entry that the push wrote. -/

namespace Sys2Proof
open Machine

/-- Settles O23: the call writes the entry at `SP` alone, and the return takes that entry. -/
theorem returnUndoesCall : Obligations.ReturnUndoesCall := by
  unfold Obligations.ReturnUndoesCall
  intro s nnn p hroom
  refine ⟨_, _, exec_call_of_push nnn (State.push_eq _ hroom),
    exec_ret_of_pop (State.pop_eq (Nat.succ_pos s.sp.val)), ?entry, rfl, fun k hk => ?older, rfl, rfl, fun _ => rfl⟩
  case entry => exact Vector.getElem_set_self hroom
  case older => exact Vector.getElem_set_ne hroom k.isLt (Nat.ne_of_gt hk)

end Sys2Proof
end

section
/-! The index register and the memory instructions (spec/42_index_memory.md R122 to R127). When the bytes exist, the
range check passes and the instruction is one `storeBytes` or one `loadV`. -/

namespace Sys2Proof.Machine

section
variable {s : State} {x : Reg}

/-! ## Each instruction as a write -/

theorem exec_addI (s : State) (x : Reg) : exec (.addI x) s = .next (s.setI (s.i + zext16 s.v[x])) := rfl

theorem exec_ldF (s : State) (x : Reg) : exec (.ldF x) s = .next (s.setI (glyphAddr s.v[x])) := rfl

theorem exec_ldB (h : s.i.toNat + 2 ≤ 0xFFF) :
    exec (.ldB x) s = .next (s.storeBytes s.i.toNat (bcdDigits s.v[x])) :=
  withRange_ok (.inr (show s.i.toNat + 3 ≤ 4096 by omega))

theorem exec_storeRegs (h : s.i.toNat + x.val ≤ 0xFFF) :
    exec (.storeRegs x) s = .next (s.storeBytes s.i.toNat (s.regsTo x)) :=
  withRange_ok (.inr (show s.i.toNat + (x.val + 1) ≤ 4096 by omega))

theorem exec_loadRegs (h : s.i.toNat + x.val ≤ 0xFFF) : exec (.loadRegs x) s = .next (s.loadV x s.i.toNat) :=
  withRange_ok (.inr (show s.i.toNat + (x.val + 1) ≤ 4096 by omega))

/-! ## The values -/

/-- Five times a byte fits 16 bits (R123). -/
theorem glyphAddr_toNat (b : Byte) : (glyphAddr b).toNat = 5 * b.toNat := by
  have hb := b.isLt
  rw [glyphAddr, BitVec.toNat_mul, zext16_toNat]
  simp only [BitVec.reduceToNat]; omega

theorem byte_ofNat_toNat {n : Nat} (h : n < 256) : (BitVec.ofNat 8 n).toNat = n := Nat.mod_eq_of_lt h

theorem State.regsTo_get (s : State) {k x : Reg} (h : k.val < (s.regsTo x).length) :
    (s.regsTo x)[k.val] = s.v[k] := by
  simp only [regsTo, List.getElem_take, Vector.getElem_toList]
  rfl

/-- A block store puts `V[k]` at `I + k` (R125). -/
theorem readByte_storeRegs {k : Reg} (hwf : s.memWf = true) (h : s.i.toNat + x.val ≤ 0xFFF) (hk : k ≤ x) :
    (s.storeBytes s.i.toNat (s.regsTo x)).readByte (s.i.toNat + k.val) = s.v[k] := by
  have hlen := s.regsTo_length x
  have hlt : k.val < (s.regsTo x).length := by rw [hlen]; exact Nat.lt_succ_of_le hk
  rw [State.readByte_storeBytes_at k.val hlt hwf (by omega), s.regsTo_get]

theorem State.onlyRegs_loadV (s : State) (x : Reg) (a : Nat) : OnlyRegs (· ≤ x) s (s.loadV x a) :=
  ⟨rfl, fun r hr => by rw [loadV_get, if_neg hr], fun n => congrFun (s.loadV_readByte x a) n⟩

theorem State.loadV_get_of_le (s : State) {k x : Reg} (a : Nat) (hk : k ≤ x) :
    (s.loadV x a).v[k] = s.readByte (a + k.val) := by rw [loadV_get, if_pos hk]

end

end Sys2Proof.Machine

namespace Sys2Proof
open Machine

/-- Settles O35: a word sum is modulo 65536, and five times a byte needs no reduction. -/
theorem indexArithmetic : Obligations.IndexArithmetic := by
  unfold Obligations.IndexArithmetic
  intro s x
  have sum_value : (s.setI (s.i + zext16 s.v[x])).i.toNat = (s.i.toNat + s.v[x].toNat) % 65536 := by
    rw [State.setI_i, BitVec.toNat_add, zext16_toNat]
  have glyph_value : (s.setI (glyphAddr s.v[x])).i.toNat = 5 * s.v[x].toNat := by
    rw [State.setI_i, glyphAddr_toNat]
  exact ⟨⟨_, exec_addI s x, sum_value, s.eq_setI_frame _, s.sameBytes_setI _⟩,
    ⟨_, exec_ldF s x, glyph_value, s.eq_setI_frame _, s.sameBytes_setI _⟩⟩

/-- Settles O36: each digit fits a byte. -/
theorem bcdStoresThreeDigits : Obligations.BcdStoresThreeDigits := by
  unfold Obligations.BcdStoresThreeDigits
  intro s x hwf hfit
  have hv := s.v[x].isLt
  have stored (k : Nat) (hk : k < 3) : (s.storeBytes s.i.toNat (bcdDigits s.v[x])).readByte (s.i.toNat + k)
      = (bcdDigits s.v[x])[k]'hk :=
    State.readByte_storeBytes_at (xs := bcdDigits s.v[x]) k hk hwf (show s.i.toNat + 3 ≤ 4096 by omega)
  refine ⟨_, exec_ldB hfit, ?hundreds, ?tens, ?ones, s.onlyBytes_storeBytes _ _⟩
  case hundreds => exact (congrArg BitVec.toNat (stored 0 (by decide))).trans (byte_ofNat_toNat (by omega))
  case tens => exact (congrArg BitVec.toNat (stored 1 (by decide))).trans (byte_ofNat_toNat (by omega))
  case ones => exact (congrArg BitVec.toNat (stored 2 (by decide))).trans (byte_ofNat_toNat (by omega))

/-- Settles O37. -/
theorem storeRegistersAscending : Obligations.StoreRegistersAscending := by
  unfold Obligations.StoreRegistersAscending
  intro s x hwf hfit
  have frame := s.onlyBytes_storeBytes s.i.toNat (s.regsTo x)
  rw [s.regsTo_length] at frame
  exact ⟨_, exec_storeRegs hfit, fun k hk => readByte_storeRegs hwf hfit hk, frame⟩

/-- Settles O38. -/
theorem loadRegistersAscending : Obligations.LoadRegistersAscending := by
  unfold Obligations.LoadRegistersAscending
  exact fun s x hfit => ⟨_, exec_loadRegs hfit, fun k hk => s.loadV_get_of_le _ hk, s.onlyRegs_loadV x _⟩

/-- Settles O39: the load reads the bytes that the store put at the same `I`. -/
theorem storeThenLoadRoundTrip : Obligations.StoreThenLoadRoundTrip := by
  unfold Obligations.StoreThenLoadRoundTrip
  intro s x bank hwf hfit
  refine ⟨_, _, exec_storeRegs hfit, exec_loadRegs hfit, fun k hk => ?_, (State.onlyRegs_loadV _ x _).2.1⟩
  rw [State.loadV_get_of_le _ _ hk]
  exact readByte_storeRegs hwf hfit hk

/-- Settles O40: the two bytes at `PC` are the first two of the block. -/
theorem fetchSeesTheStore : Obligations.FetchSeesTheStore := by
  unfold Obligations.FetchSeesTheStore
  intro s x hwf hipc hfit hx
  have hfit' : s.i.toNat + x.val ≤ 0xFFF := by rw [hipc]; exact hfit
  refine ⟨_, exec_storeRegs hfit', rfl, ?_⟩
  have hpc : (s.storeBytes s.i.toNat (s.regsTo x)).pc.toNat ≤ 0xFFE := by rw [State.storeBytes_pc]; omega
  rw [fetch_ok hpc, State.wordAtPc, State.storeBytes_pc, ← hipc]
  have hi := readByte_storeRegs (k := 0) hwf hfit' (Fin.zero_le x)
  have lo := readByte_storeRegs (k := 1) hwf hfit' hx
  exact congrArg _ (congrArg₂ wordOfBytes hi lo)

end Sys2Proof
end

section
/-! The display and the keyboard (spec/43_display_keyboard.md R141 to R149). The commands of a draw are its points in
order, so an empty list of commands is a draw that asks nothing. -/

namespace Sys2Proof.Machine

/-! ## The points of a sprite as a list comprehension (R143, R144) -/

theorem rowPoints_eq (bits : Byte) (x y : Coord) (cols : Nat) : ∀ col, rowPoints bits x y col cols =
    (List.range' col cols).filterMap fun c =>
      if bits.getLsbD (7 - c) then some (x + BitVec.ofNat 9 c, y) else none := by
  induction cols with
  | zero => intro col; rfl
  | succ cols ih =>
    intro col
    rw [rowPoints, List.range'_succ, List.filterMap_cons, ih]
    split <;> rfl

theorem State.spritePoints_eq (s : State) (base : Nat) (x y : Coord) (rows : Nat) : ∀ row,
    s.spritePoints base x y row rows =
      (List.range' row rows).flatMap fun r => rowPoints (s.readByte (base + r)) x (y + BitVec.ofNat 9 r) 0 8 := by
  induction rows with
  | zero => intro row; rfl
  | succ rows ih => intro row; rw [spritePoints, List.range'_succ, List.flatMap_cons, ih]

/-- The unreduced sum of a coordinate (R144 a). -/
theorem coord_add_ofNat (b : Byte) (k : Nat) : coord b + BitVec.ofNat 9 k = BitVec.ofNat 9 (b.toNat + k) := by
  have hcoord : coord b = BitVec.ofNat 9 b.toNat :=
    BitVec.eq_of_toNat_eq ((BitVec.toNat_setWidth _ _).trans (BitVec.toNat_ofNat _ _).symm)
  rw [hcoord, BitVec.ofNat_add]

section
variable (s : State) (x y : Reg) (n : BitVec 4)

theorem drawCommands_eq : drawCommands s x y n = (s.drawPoints x y n).map fun p => .toggle p.1 p.2 := by
  simp only [drawCommands, State.drawPoints, State.spritePoints_eq, rowPoints_eq, ← List.range_eq_range',
    List.map_flatMap, List.map_filterMap, coord_add_ofNat, State.base]
  congr 1
  funext row
  congr 1
  funext col
  split <;> rfl

theorem drawCommands_length : (drawCommands s x y n).length = (s.drawPoints x y n).length := by
  rw [drawCommands_eq, List.length_map]

/-- Rows without 1 bits give no command. -/
theorem drawCommands_eq_nil (h : ∀ row < n.toNat, s.readByte (s.i.toNat + row) = 0) : drawCommands s x y n = [] := by
  refine List.flatMap_eq_nil_iff.2 fun row hrow => List.filterMap_eq_nil_iff.2 fun col _ => ?_
  have hbit : (0 : Byte).getLsbD (7 - col) = false := BitVec.getLsbD_zero
  rw [h row (List.mem_range.1 hrow), hbit]
  rfl

theorem drawPoints_eq_nil (h : ∀ row < n.toNat, s.readByte (s.i.toNat + row) = 0) : s.drawPoints x y n = [] := by
  rw [← List.map_eq_nil_iff, ← drawCommands_eq, drawCommands_eq_nil s x y n h]

/-! ## A draw whose rows exist -/

/-- A draw writes the flag in the state that the toggles leave. -/
theorem exec_drw_of_range (h : n.toNat = 0 ∨ s.i.toNat + n.toNat ≤ 0x1000) :
    exec (.drw x y n) s = .next ((s.togglePixels (s.drawPoints x y n)).2.setV flagReg
      (collisionFlag (s.togglePixels (s.drawPoints x y n)).1)) :=
  withRange_ok h

end

theorem collisionFlag_any (answers : List Bool) :
    collisionFlag (answers.any id) = if true ∈ answers then 0x01 else 0x00 := by
  simp only [collisionFlag, flagByte, List.any_eq_true, id, exists_eq_right]

/-! ## The keyboard -/

section
variable {s : State} {x : Reg}

theorem State.skipIf_eq (s : State) (c : Bool) : s.skipIf c = { s with pc := if c then s.pc + 2 else s.pc } := by
  cases c <;> rfl

theorem exec_skp : exec (.skp x) s = .next ((s.keyHeld s.v[x]).2.skipIf (s.keyHeld s.v[x]).1) := rfl

theorem exec_sknp : exec (.sknp x) s = .next ((s.keyHeld s.v[x]).2.skipIf !(s.keyHeld s.v[x]).1) := rfl

theorem State.keyHeld_of_le {k : Byte} (h : k.toNat ≤ 15) :
    s.keyHeld k = (s.drawKeys.1.getLsbD k.toNat, s.drawKeys.2) := if_pos h

theorem State.keyHeld_of_gt {k : Byte} (h : 15 < k.toNat) : s.keyHeld k = (false, s) := if_neg (Nat.not_le.2 h)

theorem State.drawKeys_pc (s : State) : s.drawKeys.2.pc = s.pc := by
  rcases s.drawKeys_spec with ⟨_, -, h⟩ | ⟨-, -, h⟩ <;> rw [h]

/-- A key press while the core waits writes the key's number and resumes (R149). -/
theorem deliver_keyPress_of_paused (h : s.paused = true) (k : Key) :
    deliver (.keyPress k) s = .next (s.setV s.keyDest (BitVec.ofNat 8 k.val)).resume :=
  congrArg Host.Outcome.next (if_pos h)

theorem deliver_keyPress_of_not_paused (h : s.paused = false) (k : Key) : deliver (.keyPress k) s = .next s :=
  congrArg Host.Outcome.next (if_neg (Bool.eq_false_iff.1 h))

theorem key_toNat (k : Key) : (BitVec.ofNat 8 k.val).toNat = k.val := byte_ofNat_toNat (by omega)

end

end Sys2Proof.Machine

namespace Sys2Proof
open Machine

/-- Settles O41. -/
theorem clearSendsOneCommand : Obligations.ClearSendsOneCommand := by
  unfold Obligations.ClearSendsOneCommand
  exact fun s => ⟨s.emit .clear, rfl, rfl, rfl, fun _ => rfl⟩

/-- Settles O42: the toggles take one answer for each command, and the flag is written after the last. -/
theorem drawSendsTogglesAndSetsCollision : Obligations.DrawSendsTogglesAndSetsCollision := by
  unfold Obligations.DrawSendsTogglesAndSetsCollision
  intro s x y n hrange
  have hexec := exec_drw_of_range s x y n (by omega)
  rw [State.togglePixels_spec, ← drawCommands_length, ← drawCommands_eq, collisionFlag_any] at hexec
  exact ⟨_, hexec, rfl, State.setV_get_same _ _ _, State.onlyRegs_setV _ _ _⟩

/-- Settles O43: a draw of no points sends and asks nothing, and no answer is true. -/
theorem emptySpriteOnlyClearsFlag : Obligations.EmptySpriteOnlyClearsFlag := by
  unfold Obligations.EmptySpriteOnlyClearsFlag
  intro s x y n h
  have hrange : n.toNat = 0 ∨ s.i.toNat + n.toNat ≤ 0x1000 := h.imp_right And.left
  have hzero : ∀ row < n.toNat, s.readByte (s.i.toNat + row) = 0 := by
    rcases h with h0 | ⟨-, hrows⟩
    · intro row hrow; omega
    · exact hrows
  have hexec := exec_drw_of_range s x y n hrange
  rw [drawPoints_eq_nil s x y n hzero] at hexec
  exact ⟨_, hexec, s.setV_get_same _ _, s.onlyRegs_setV _ _⟩

/-- Settles O45: both skips take the same sample, and none for a number above 15. -/
theorem keySkips : Obligations.KeySkips := by
  unfold Obligations.KeySkips
  refine fun s x => ⟨fun h => ⟨_, _, s.drawKeys_spec, ?skp, ?sknp⟩, fun h => ⟨?skpNoKey, ?sknpNoKey⟩⟩
  case skp => rw [exec_skp, State.keyHeld_of_le h, State.skipIf_eq, State.drawKeys_pc]
  case sknp =>
    rw [exec_sknp, State.keyHeld_of_le h, State.skipIf_eq, State.drawKeys_pc]
    cases s.drawKeys.1.getLsbD s.v[x].toNat <;> rfl
  case skpNoKey => rw [exec_skp, State.keyHeld_of_gt h]; rfl
  case sknpNoKey => rw [exec_sknp, State.keyHeld_of_gt h]; rfl

/-- Settles O46. -/
theorem keyWaitAndKeyPress : Obligations.KeyWaitAndKeyPress := by
  unfold Obligations.KeyWaitAndKeyPress
  intro s x k
  refine ⟨s.pauseFor x, _, rfl, rfl, deliver_keyPress_of_paused rfl k, ?_, rfl,
    State.onlyRegs_setV (s.pauseFor x).resume x _, fun hp => deliver_keyPress_of_not_paused hp k⟩
  rw [State.resume_v, State.pauseFor_keyDest, State.setV_get_same, key_toNat]

end Sys2Proof
end

section
/-! The reference renderer (spec/50_interfaces.md R178). A toggle undoes itself, and toggles commute, so running a
list of toggles twice undoes it. If no toggle erased, then each set a pixel that no later one names, so all these
pixels stand set when the list is run again. -/

namespace Sys2Proof.Machine.Screen

variable {z : ScreenSize}

/-! ## A toggle, pixel by pixel -/

theorem ext_get {fb fb' : Screen z} (h : ∀ (r c : Nat) (hr : r < z.h) (hc : c < z.w), fb[r][c] = fb'[r][c]) :
    fb = fb' :=
  Vector.ext fun r hr => Vector.ext fun c hc => h r c hr hc

/-- The coordinate pair names the pixel in row `r` and column `c`. -/
def names (z : ScreenSize) (p : Coord × Coord) (r c : Nat) : Bool :=
  p.2.toNat % z.h == r && p.1.toNat % z.w == c

/-- The two pairs name one pixel. -/
def samePixel (z : ScreenSize) (p q : Coord × Coord) : Bool := names z p (q.2.toNat % z.h) (q.1.toNat % z.w)

/-- The pixel that a pair names. -/
def pixelAt (fb : Screen z) (p : Coord × Coord) : Bool := fb.pixel p.1 p.2

/-- The screen after one toggle. -/
def flip (fb : Screen z) (p : Coord × Coord) : Screen z := (fb.toggle p.1 p.2).2

theorem flip_get (fb : Screen z) (p : Coord × Coord) (r c : Nat) (hr : r < z.h) (hc : c < z.w) :
    (fb.flip p)[r][c] = (fb[r][c] ^^ names z p r c) := by
  simp only [flip, toggle, setPixel, pixel, names, Vector.getElem_set]
  by_cases h : p.2.toNat % z.h = r
  · subst h
    by_cases h' : p.1.toNat % z.w = c
    · subst h'; simp
    · simp [h', beq_false_of_ne h']
  · simp [h, beq_false_of_ne h]

theorem flip_flip (fb : Screen z) (p : Coord × Coord) : (fb.flip p).flip p = fb :=
  ext_get fun r c hr hc => by rw [flip_get, flip_get, Bool.xor_assoc, Bool.xor_self, Bool.xor_false]

theorem flip_comm (fb : Screen z) (p q : Coord × Coord) : (fb.flip p).flip q = (fb.flip q).flip p :=
  ext_get fun r c hr hc => by rw [flip_get, flip_get, flip_get, flip_get, Bool.xor_right_comm]

theorem pixelAt_flip (fb : Screen z) (p q : Coord × Coord) :
    (fb.flip p).pixelAt q = (fb.pixelAt q ^^ samePixel z p q) :=
  flip_get fb p _ _ _ _

theorem pixelAt_flip_self (fb : Screen z) (p : Coord × Coord) : (fb.flip p).pixelAt p = !fb.pixelAt p := by
  rw [pixelAt_flip]; simp [samePixel, names]

theorem pixelAt_eq_of_samePixel (fb : Screen z) {p q : Coord × Coord} (h : samePixel z p q = true) :
    fb.pixelAt q = fb.pixelAt p := by
  simp only [samePixel, names, Bool.and_eq_true, beq_iff_eq] at h
  simp only [pixelAt, pixel, h]

/-- Toggling a clear pixel clears no other. -/
theorem pixelAt_flip_of_clear {fb : Screen z} {p q : Coord × Coord} (hp : fb.pixelAt p = false)
    (hq : fb.pixelAt q = true) : (fb.flip p).pixelAt q = true := by
  have hne : samePixel z p q = false := Bool.eq_false_iff.2 fun h => by
    rw [pixelAt_eq_of_samePixel fb h, hp] at hq; cases hq
  rw [pixelAt_flip, hne, hq]; rfl

/-! ## A list of toggles -/

/-- The commands of a list of points. -/
def toggles (ps : List (Coord × Coord)) : List Output := ps.map fun p => .toggle p.1 p.2

/-- The screen after a list of toggles. -/
def flips (fb : Screen z) (ps : List (Coord × Coord)) : Screen z := (fb.run (toggles ps)).2

/-- The renderer's answers to a list of toggles. -/
def erasures (fb : Screen z) (ps : List (Coord × Coord)) : List Bool := (fb.run (toggles ps)).1

variable (fb : Screen z) (p q : Coord × Coord) (ps : List (Coord × Coord))

theorem flips_cons : fb.flips (p :: ps) = (fb.flip p).flips ps := rfl

theorem erasures_cons : fb.erasures (p :: ps) = fb.pixelAt p :: (fb.flip p).erasures ps := rfl

theorem erasures_length : (fb.erasures ps).length = ps.length := by
  induction ps generalizing fb with
  | nil => rfl
  | cons p ps ih => rw [erasures_cons, List.length_cons, List.length_cons, ih]

theorem flips_flip : (fb.flip q).flips ps = (fb.flips ps).flip q := by
  induction ps generalizing fb with
  | nil => rfl
  | cons p ps ih => rw [flips_cons, flips_cons, flip_comm, ih]

theorem flips_flips : (fb.flips ps).flips ps = fb := by
  induction ps generalizing fb with
  | nil => rfl
  | cons p ps ih => rw [flips_cons, flips_cons, ← flips_flip, flip_flip, ih]

/-! ## A list of toggles that erases nothing -/

/-- No toggle of the list erased. -/
def Silent : Prop := ∀ e ∈ fb.erasures ps, e = false

variable {fb p q ps}

theorem silent_cons : fb.Silent (p :: ps) ↔ fb.pixelAt p = false ∧ (fb.flip p).Silent ps := List.forall_mem_cons

/-- Every pixel of the list was clear before. -/
theorem Silent.clear_before (h : fb.Silent ps) : ∀ q ∈ ps, fb.pixelAt q = false := by
  induction ps generalizing fb with
  | nil => exact fun q hq => absurd hq List.not_mem_nil
  | cons p ps ih =>
    obtain ⟨hp, hps⟩ := silent_cons.1 h
    refine List.forall_mem_cons.2 ⟨hp, fun q hq => Bool.eq_false_iff.2 fun hset => ?_⟩
    have hclear := ih hps q hq
    rw [pixelAt_flip_of_clear hp hset] at hclear
    cases hclear

/-- A pixel that was set stays set. -/
theorem Silent.keeps_set (h : fb.Silent ps) (hq : fb.pixelAt q = true) : (fb.flips ps).pixelAt q = true := by
  induction ps generalizing fb with
  | nil => exact hq
  | cons p ps ih =>
    obtain ⟨hp, hps⟩ := silent_cons.1 h
    exact ih hps (pixelAt_flip_of_clear hp hq)

/-- Every pixel of the list is set after. -/
theorem Silent.set_after (h : fb.Silent ps) : ∀ q ∈ ps, (fb.flips ps).pixelAt q = true := by
  induction ps generalizing fb with
  | nil => exact fun q hq => absurd hq List.not_mem_nil
  | cons p ps ih =>
    obtain ⟨hp, hps⟩ := silent_cons.1 h
    have hset : (fb.flip p).pixelAt p = true := by rw [pixelAt_flip_self, hp]; rfl
    exact List.forall_mem_cons.2 ⟨hps.keeps_set hset, ih hps⟩

/-- The toggles name different pixels, so on a screen where all are set each of them erases. -/
theorem Silent.erases (h : fb.Silent ps) : ∀ {g : Screen z}, (∀ q ∈ ps, g.pixelAt q = true) →
    ∀ e ∈ g.erasures ps, e = true := by
  induction ps generalizing fb with
  | nil => exact fun _ e he => absurd he List.not_mem_nil
  | cons p ps ih =>
    intro g hg
    obtain ⟨hgp, hgps⟩ := List.forall_mem_cons.1 hg
    obtain ⟨hp, hps⟩ := silent_cons.1 h
    refine List.forall_mem_cons.2 ⟨hgp, ih hps fun q hq => ?_⟩
    have hset : (fb.flip p).pixelAt p = true := by rw [pixelAt_flip_self, hp]; rfl
    have hne : samePixel z p q = false := Bool.eq_false_iff.2 fun hsame => by
      have hclear := hps.clear_before q hq
      rw [pixelAt_eq_of_samePixel _ hsame, hset] at hclear
      cases hclear
    exact (pixelAt_flip g p q).trans (by rw [hne, hgps q hq]; rfl)

end Sys2Proof.Machine.Screen

namespace Sys2Proof
open Machine

/-- Settles O44: toggles undo themselves and commute, and a pass that erased nothing left every pixel it named set. -/
theorem drawingTwiceRestoresTheScreen : Obligations.DrawingTwiceRestoresTheScreen := by
  unfold Obligations.DrawingTwiceRestoresTheScreen
  intro z fb ps
  exact ⟨fb.flips_flips ps, fb.erasures_length ps, fun h => Screen.Silent.erases h (Screen.Silent.set_after h)⟩

end Sys2Proof
end
